-- ==== Sys2Proof/Word.lean ====
section
/-! DEFINITION. The unsigned value types of R7 (00_scope.md): u8 and u32. Addition is modulo 2^32 and XOR, AND, OR
are bitwise, as the operations of BitVec are. -/

namespace Sys2Proof

/-- u8 of R7: one byte of a message. -/
abbrev Byte := BitVec 8

/-- u32 of R7: a register, a half-block, a subkey, a command word, the data of a bus transaction. -/
abbrev Word := BitVec 32

end Sys2Proof
end

