-- ==== Sys2Proof/Config.lean ====
section
/-! DEFINITION. What an implementation fixes (R4 to R6; 93_implementation_defined.md I3, I6, I7) and the free values
of what the spec leaves unspecified (R45, R50; 93 I1, I2). -/

namespace Sys2Proof

/-- UNPAD_K0 (93 I3): what non-strict unpad does with a last byte of 0. `keep` is the reading of the rules,
`empty` what a Python slice would give. -/
inductive UnpadK0 where
  | keep
  | empty
  deriving DecidableEq, Repr

/-- The parameters of one part. They are data of the state, so that a statement over all states holds for every
value of them; no step changes them (log 1). -/
structure Config where
  /-- BASE: the host address of register offset 0 (R6). -/
  base : Nat
  /-- MBUF_BYTES: the capacity of the message buffer (R6). -/
  mbufBytes : Nat
  /-- KS_STEP: the key-schedule step constant (R5). -/
  ksStep : Word
  /-- UNPAD_K0 (93 I3). -/
  unpadK0 : UnpadK0
  deriving DecidableEq, Repr

/-- The size of the register window (R20), which BASE is aligned to (R6). -/
def Config.windowBytes : Nat := 0x20000

/-- The constraints of R6 on BASE and MBUF_BYTES. -/
def Config.legal (c : Config) : Bool :=
  c.base % Config.windowBytes == 0 && c.mbufBytes % 8 == 0 && decide (16 ≤ c.mbufBytes) && decide (c.mbufBytes ≤ 65536)

/-- The defaults for tests (R5, R6) and the KEEP default of 93 I3. DESIGN CHOICE (logs 1, 2): the part after reset. -/
def Config.testDefault : Config :=
  { base := 0x40000000, mbufBytes := 1024, ksStep := 123456#32, unpadK0 := .keep }

/-- Free value (log 3): the byte at MBUF address `a` that the `n`-th reset leaves (R50, 93 I2). -/
opaque Config.mbufAtReset : (n a : Nat) → Byte

/-- Free value (log 4): what the `n`-th volatile read of 32 bits returns while BUSY = 1 (R45, 93 I1). -/
opaque Config.volatileWord : (n : Nat) → Word

/-- Free value (log 4): what the `n`-th volatile read returns when it reads one MBUF byte while BUSY = 1 (93 I1). -/
opaque Config.volatileByte : (n : Nat) → Byte

end Sys2Proof
end

