-- ==== Sys2Proof/Syntax.lean ====
section
/-! DEFINITION. The ten commands of FCC-CMD version 1, one constructor per row of spec/opcode_table.json (R91). -/

namespace Sys2Proof

/-- A command. No command has a register field or an immediate field (R92): every operand is implicit, so no
constructor takes an argument. -/
inductive Instr where
  | nop      -- R194
  | loadkey  -- R111
  | roundf   -- R122
  | encb     -- R136
  | decb     -- R137
  | pad      -- R151
  | unpad    -- R155
  | split    -- R172
  | encbuf   -- R174
  | decbuf   -- R175
  deriving DecidableEq, Repr

end Sys2Proof
end

