-- ==== Sys2Proof/WellFormed.lean ====
section
/-! DEFINITION. What a well-formed command word and a well-formed command are (R90 to R94). -/

namespace Sys2Proof

/-- RSV = 0: bits [31:8] of a command word (R90). -/
def WellFormed.reservedClear (w : Word) : Bool := w.extractLsb' 8 24 == 0#24

/-- OPCODE is one of 0x00 to 0x09: bits [7:0] of a command word (R91, R93). -/
def WellFormed.opcodeDefined (w : Word) : Bool := decide ((w.extractLsb' 0 8).toNat ≤ 0x09)

/-- The words that select a command (R91, R94). -/
def WellFormed.word (w : Word) : Bool := WellFormed.reservedClear w && WellFormed.opcodeDefined w

/-- A command has no field that could hold an illegal value (R92), so every command is well formed. -/
def Instr.wellFormed : Instr → Bool
  | .nop => true
  | .loadkey => true
  | .roundf => true
  | .encb => true
  | .decb => true
  | .pad => true
  | .unpad => true
  | .split => true
  | .encbuf => true
  | .decbuf => true

end Sys2Proof
end

