-- ==== Sys2Proof/Decode.lean ====
section
/-! DEFINITION. Decoding a command word (R90 to R94, R195), and the encoder (R91). -/

namespace Sys2Proof

/-- Why a word selects no command; either way the command completes with BAD_COMMAND (R195). -/
inductive DecodeError where
  /-- RSV, bits [31:8], is not 0 (R94). -/
  | reservedBits
  /-- RSV is 0 and OPCODE is in 0x0A..0xFF (R93). -/
  | reservedOpcode
  deriving DecidableEq, Repr

/-- The OPCODE field, bits [7:0] (R90). -/
def opcodeField (w : Word) : Byte := w.extractLsb' 0 8

/-- The RSV field, bits [31:8] (R90). -/
def reservedField (w : Word) : BitVec 24 := w.extractLsb' 8 24

/-- The opcode map of R91. -/
def opcodeMap (opcode : Byte) : Option Instr :=
  match opcode.toNat with
  | 0x00 => some .nop
  | 0x01 => some .loadkey
  | 0x02 => some .roundf
  | 0x03 => some .encb
  | 0x04 => some .decb
  | 0x05 => some .pad
  | 0x06 => some .unpad
  | 0x07 => some .split
  | 0x08 => some .encbuf
  | 0x09 => some .decbuf
  | _ => none

/-- Decode at completion (R195): total on the 2^32 words, rejecting by name. -/
def decode (w : Word) : Except DecodeError Instr :=
  if reservedField w ≠ 0#24 then .error .reservedBits
  else
    match opcodeMap (opcodeField w) with
    | some i => .ok i
    | none => .error .reservedOpcode

/-- The OPCODE of a command (R91). -/
def opcode : Instr → Byte
  | .nop => 0x00
  | .loadkey => 0x01
  | .roundf => 0x02
  | .encb => 0x03
  | .decb => 0x04
  | .pad => 0x05
  | .unpad => 0x06
  | .split => 0x07
  | .encbuf => 0x08
  | .decbuf => 0x09

/-- The word to write for a command: zext_32(OPCODE) (R91). -/
def encode (i : Instr) : Word := (opcode i).setWidth 32

/-- The host's reading of a table word: the command word is one 32-bit value, so its bits are numbered as the table
numbers them, and bits from `nbits` up are 0. -/
def decodeTableWord (nbits w : Nat) : Option Instr :=
  match decode (BitVec.ofNat 32 (w % 2 ^ nbits)) with
  | .ok i => some i
  | .error _ => none

end Sys2Proof
end

