-- ==== Sys2Proof/Machine/State.lean ====
section
/-! DEFINITION. The state of one FCC (10_state.md), what the host has still to do to it, and the reset state (R50). -/

namespace Sys2Proof.Machine

/-- The outcome codes of a command, 0 to 7 (R201). Codes 8 to 15 are never reported. -/
inductive ErrCode where
  | ok
  | invalidBlockSize
  | invalidPadding
  | truncatedInput
  | noKey
  | capacity
  | emptyInput
  | badCommand
  deriving DecidableEq, Repr

/-- The size of a bus transaction: 1, 2 or 4 bytes (R60). -/
inductive Width where
  | byte
  | half
  | word
  deriving DecidableEq, Repr

/-- The response of a bus transaction (R60). -/
inductive Resp where
  | ok
  | error
  deriving DecidableEq, Repr

/-- What a bus transaction returns to the host (R60). -/
inductive Reply where
  | read (resp : Resp) (rdata : Word)
  | write (resp : Resp)
  deriving DecidableEq, Repr

/-- What can happen to the FCC in one step (00_scope.md section 6, R72, R78). Addresses are host addresses (R61). -/
inductive Event where
  /-- The host's Read transaction (R60). -/
  | read (addr : Nat) (size : Width)
  /-- The host's Write transaction (R60). -/
  | write (addr : Nat) (size : Width) (wdata : Word)
  /-- The host's polling loop `wait`: it reads STATUS until bit 0 of the value read is 0 (R97). -/
  | poll
  /-- The engine's turn: here the pending command completes, if there is one (R192, log 5). -/
  | engine
  /-- The rst input is asserted (R230). -/
  | rst
  deriving DecidableEq, Repr

/-- MBUF: the bytes written since the last reset, by MBUF byte address (R33), addresses strictly rising. An unlisted
address has not been written since the reset and holds the free byte of R50 (log 3). -/
abbrev Memory := List Host.Cell

/-- One FCC and its host. -/
structure State where
  /-- CTRL.IEN (R24). -/
  ien : Bool
  /-- CTRL.STRICT_PAD (R24). -/
  strictPad : Bool
  /-- CTRL.STRICT_SPLIT (R24). -/
  strictSplit : Bool
  /-- STATUS.DONE (R25). -/
  done : Bool
  /-- STATUS.KEYVALID (R25). -/
  keyValid : Bool
  /-- STATUS.WERR (R25, R26). -/
  werr : Bool
  /-- STATUS.ERRCODE (R25, R201). -/
  errCode : ErrCode
  /-- PEND, the pending command word. STATUS.BUSY = 1 exactly when it is not empty (R44). -/
  pend : Option Word
  /-- KEYIN (R28). -/
  keyin : Word
  /-- AKEY (R43). -/
  akey : Word
  /-- The subkey file SK[0..15] (R34). -/
  sk : Vector Word 16
  /-- DIN0 (R29). -/
  din0 : Word
  /-- DIN1 (R29). -/
  din1 : Word
  /-- DOUT0 (R31). -/
  dout0 : Word
  /-- DOUT1 (R31). -/
  dout1 : Word
  /-- MLEN (R30). -/
  mlen : Nat
  /-- FRAMEINFO (R32). -/
  frameinfo : Word
  /-- MBUF (R33). -/
  mbuf : Memory
  /-- The model's own: how many resets there have been, the index of MBUF's free bytes (log 3). -/
  resets : Nat
  /-- The model's own: how many volatile reads there have been, the index of their free values (log 4). -/
  draws : Nat
  /-- The model's own: what the host and the platform still do, in order, with the engine's turns among it (log 5). -/
  inputs : List Event
  /-- The model's own: the responses the FCC has given, newest first (log 11). -/
  replies : List Reply
  /-- The parameters of the part (R4 to R6). -/
  cfg : Config
  deriving DecidableEq, Repr

/-- Why the machine stops. NO RULE OF THE SPEC STOPS THE FCC (R10, R200, R209, R210): a command error is an ERRCODE, a
bus error a reply, a dropped write WERR, each in a next state. So there is no constructor, nobody raises one, and a step that
faults is impossible (safe, log 12). -/
inductive Fault where
  deriving DecidableEq, Repr

/-- Why an instruction has no meaning. -/
inductive Refusal where
  /-- Raised by an arm of exec whose command has no meaning yet (safe). Every command has one, so nobody raises it. -/
  | notModelled (mnemonic : String)
  deriving DecidableEq, Repr

/-- The reset values of R50. The model's own fields start at 0 and empty and the parameters at the defaults for tests
(DESIGN CHOICE, logs 1, 3, 4, 5, 11). -/
def State.reset : State where
  ien := false
  strictPad := false
  strictSplit := false
  done := false
  keyValid := false
  werr := false
  errCode := .ok
  pend := none
  keyin := 0#32
  akey := 0#32
  sk := Vector.replicate 16 0#32
  din0 := 0#32
  din1 := 0#32
  dout0 := 0#32
  dout1 := 0#32
  mlen := 0
  frameinfo := 0#32
  mbuf := []
  resets := 0
  draws := 0
  inputs := []
  replies := []
  cfg := Config.testDefault

end Sys2Proof.Machine
end

