-- ==== Sys2Proof/Machine/Ops.lean ====
section
/-! DEFINITION. The named operations: MBUF (R33), the STATUS update and the error entry of a completion (R192, R193,
R213), its return (R216), and the reset event (R231). -/

namespace Sys2Proof.Machine

/-- The canonical form of MBUF: addresses strictly rising (so none is listed twice). -/
abbrev Memory.wf (m : Memory) : Prop := m.Pairwise fun p q => p.1 < q.1

/-- Every listed address is an MBUF byte address below `n` (R33). -/
abbrev Memory.within (n : Nat) (m : Memory) : Prop := ∀ p ∈ m, p.1 < n

/-- The byte written at `a` since the last reset. What an unlisted address reads as: no written byte. -/
def Memory.lookup : Memory → Nat → Option Byte
  | [], _ => none
  | (x, b) :: m, a => if a = x then some b else Memory.lookup m a

/-- `MBUF[a] <- b` (R9). -/
def Memory.set : Memory → Nat → Byte → Memory
  | [], a, b => [(a, b)]
  | (x, c) :: m, a, b =>
    if a < x then (a, b) :: (x, c) :: m
    else if a = x then (a, b) :: m
    else (x, c) :: Memory.set m a b

/-- `MemWrite(a, n, bs)` (R9). -/
def Memory.setMany : Memory → Nat → List Byte → Memory
  | m, _, [] => m
  | m, a, b :: bs => Memory.setMany (Memory.set m a b) (a + 1) bs

/-- `MBUF[a]` (R9) in a machine that has seen `n` resets: the byte written, else the byte the reset left (R50). -/
def Memory.read (n : Nat) (m : Memory) (a : Nat) : Byte := (Memory.lookup m a).getD (Config.mbufAtReset n a)

/-- `MemRead(a, k)` (R9). -/
def Memory.readMany (n : Nat) (m : Memory) (a k : Nat) : List Byte := (List.range k).map fun j => Memory.read n m (a + j)

/-- `MBUF[a]` (R9). -/
def State.readByte (s : State) (a : Nat) : Byte := Memory.read s.resets s.mbuf a

/-- `MBUF[a] <- b` (R9). -/
def State.writeByte (s : State) (a : Nat) (b : Byte) : State := { s with mbuf := Memory.set s.mbuf a b }

/-- The valid message `MBUF[0..MLEN)` (R30). -/
def State.message (s : State) : List Byte := Memory.readMany s.resets s.mbuf 0 s.mlen

/-- STATUS.BUSY = 1 exactly when PEND is not empty (R44). -/
def State.busy (s : State) : Bool := s.pend.isSome

/-- The STATUS update at every completion (R193). -/
def State.finish (s : State) (code : ErrCode) : State := { s with errCode := code, done := true, pend := none }

/-- The completion step (R192) and its error entry (R213), for a command whose rule answers a new state or raises a code:
every write is applied, or every write is discarded; then the STATUS update. -/
def State.complete (s : State) (r : Except ErrCode State) : State :=
  match r with
  | .ok t => t.finish .ok
  | .error code => s.finish code

/-- The outcome of a command's completion: always a next state (R10). -/
def State.completed (s : State) (r : Except ErrCode State) : Host.Outcome State Fault Refusal := .next (s.complete r)

/-- The return from an error or an interrupt (R216): a write to STATUS clears DONE where wdata[1] = 1 and WERR where
wdata[3] = 1, whatever BUSY is (R25). -/
def State.acknowledge (s : State) (wdata : Word) : State :=
  { s with done := s.done && !wdata.getLsbD 1, werr := s.werr && !wdata.getLsbD 3 }

/-- A dropped host write (R26): WERR is set and every other piece of state is as it was. -/
def State.dropWrite (s : State) : State := { s with werr := true }

/-- Command issue (R190): the word is latched, not decoded. -/
def State.issue (s : State) (w : Word) : State := { s with pend := some w }

/-- A reset, hardware or soft (R231, R232): every piece of the FCC's state to its value of R50, MBUF to new free bytes.
The parameters, what the host has still to do and what it has been answered are not the FCC's state. -/
def State.resetEvent (s : State) : State :=
  { State.reset with
    resets := s.resets + 1
    draws := s.draws
    inputs := s.inputs
    replies := s.replies
    cfg := s.cfg }

/-- The FCC responds to a bus transaction (R60). -/
def State.answer (s : State) (r : Reply) : State := { s with replies := r :: s.replies }

end Sys2Proof.Machine
end

