-- ==== Sys2Proof/Machine/Operands.lean ====
section
/-! DEFINITION. Operand assembly (R92): the big-endian helpers of R8, the halves of a frame (R173), and the register map
with the forms of bus access (R20, R62, R63). -/

namespace Sys2Proof.Machine

/-- `be32(b0,b1,b2,b3)` (R8). -/
def be32 (b0 b1 b2 b3 : Byte) : Word :=
  (b0.setWidth 32 <<< 24) ||| (b1.setWidth 32 <<< 16) ||| (b2.setWidth 32 <<< 8) ||| b3.setWidth 32

/-- `bytes_be32(v) = [v[31:24], v[23:16], v[15:8], v[7:0]]` (R8). -/
def bytesBe32 (v : Word) : List Byte :=
  [v.extractLsb' 24 8, v.extractLsb' 16 8, v.extractLsb' 8 8, v.extractLsb' 0 8]

/-- `be32(MemRead(a, 4))` (R65, R173). -/
def Memory.readWord (n : Nat) (m : Memory) (a : Nat) : Word :=
  be32 (Memory.read n m a) (Memory.read n m (a + 1)) (Memory.read n m (a + 2)) (Memory.read n m (a + 3))

/-- `MemWrite(a, 4, bytes_be32(v))` (R65, R173). -/
def Memory.setWord (m : Memory) (a : Nat) (v : Word) : Memory := Memory.setMany m a (bytesBe32 v)

/-- The two halves of the 8-byte frame at `a` (R173). -/
def Memory.readHalves (n : Nat) (m : Memory) (a : Nat) : Word × Word :=
  (Memory.readWord n m a, Memory.readWord n m (a + 4))

/-- Writing a result back over the 8-byte frame at `a` (R173). -/
def Memory.setHalves (m : Memory) (a : Nat) (h : Word × Word) : Memory :=
  Memory.setWord (Memory.setWord m a h.1) (a + 4) h.2

/-- The two halves of frame `f` of the message (R173). -/
def State.frameHalves (s : State) (f : Nat) : Word × Word := Memory.readHalves s.resets s.mbuf (8 * f)

/-- The defined registers of R20. -/
inductive Reg where
  | id
  | param
  | ksstep
  | ctrl
  | status
  | cmd
  | keyin
  | mlen
  | din0
  | din1
  | dout0
  | dout1
  | frameinfo
  | sk (i : Fin 16)
  deriving DecidableEq, Repr

/-- The offset of a register from BASE (R20). -/
def Reg.offset : Reg → Nat
  | .id => 0x000
  | .param => 0x004
  | .ksstep => 0x008
  | .ctrl => 0x00C
  | .status => 0x010
  | .cmd => 0x014
  | .keyin => 0x018
  | .mlen => 0x01C
  | .din0 => 0x020
  | .din1 => 0x024
  | .dout0 => 0x028
  | .dout1 => 0x02C
  | .frameinfo => 0x030
  | .sk i => 0x040 + 4 * i.val

/-- The map of R20: every defined register. -/
def registers : List Reg :=
  [.id, .param, .ksstep, .ctrl, .status, .cmd, .keyin, .mlen, .din0, .din1, .dout0, .dout1, .frameinfo] ++
    (List.finRange 16).map .sk

/-- The register at an offset; an unaligned or reserved offset has none (R20, R35, R62). -/
def regAt (off : Nat) : Option Reg := registers.find? fun r => r.offset == off

/-- A read-only register: a write to it is a bus error (R67a). -/
def Reg.readOnly : Reg → Bool
  | .id | .param | .ksstep | .dout0 | .dout1 | .frameinfo | .sk _ => true
  | .ctrl | .status | .cmd | .keyin | .mlen | .din0 | .din1 => false

/-- A register a command may write: a read of it while BUSY = 1 is unspecified (R45). -/
def Reg.volatile : Reg → Bool
  | .dout0 | .dout1 | .mlen | .frameinfo | .sk _ => true
  | .id | .param | .ksstep | .ctrl | .status | .cmd | .keyin | .din0 | .din1 => false

/-- The offset of MBUF (R20). -/
def mbufOffset : Nat := 0x1000

/-- What a legal access addresses: a register, one MBUF byte, or an aligned group of four (R62, R63). -/
inductive Place where
  | reg (r : Reg)
  | mbufByte (a : Nat)
  | mbufWord (a : Nat)
  deriving DecidableEq, Repr

/-- The place an access of this offset and size addresses; `none` is a bus error (R62, R63, R67c). A register takes 4
aligned bytes; MBUF takes 1 byte anywhere and 4 aligned bytes. -/
def placeAt (c : Config) (off : Nat) (size : Width) : Option Place :=
  if off < mbufOffset then
    match size with
    | .word => (regAt off).map .reg
    | .half | .byte => none
  else if off < mbufOffset + c.mbufBytes then
    match size with
    | .byte => some (.mbufByte (off - mbufOffset))
    | .word => if (off - mbufOffset) % 4 = 0 then some (.mbufWord (off - mbufOffset)) else none
    | .half => none
  else none

end Sys2Proof.Machine
end

