-- ==== Sys2Proof/Machine/Flags.lean ====
section
/-! DEFINITION. The words of CTRL, STATUS, PARAM and FRAMEINFO, the numbers of the error codes, and the irq output
(R22, R24, R25, R32, R201, R214). No command computes an arithmetic condition code (R48). -/

namespace Sys2Proof.Machine

/-- The STATUS.ERRCODE value of an outcome (R201). -/
def ErrCode.number : ErrCode → BitVec 4
  | .ok => 0
  | .invalidBlockSize => 1
  | .invalidPadding => 2
  | .truncatedInput => 3
  | .noKey => 4
  | .capacity => 5
  | .emptyInput => 6
  | .badCommand => 7

/-- A flag at bit `n` of a word. -/
def flagAt (b : Bool) (n : Nat) : Word := (BitVec.ofBool b).setWidth 32 <<< n

/-- STATUS as read (R25): BUSY [0], DONE [1], KEYVALID [2], WERR [3], ERRCODE [11:8]; the rest reads 0. -/
def State.statusWord (s : State) : Word :=
  flagAt s.busy 0 ||| flagAt s.done 1 ||| flagAt s.keyValid 2 ||| flagAt s.werr 3 |||
    (s.errCode.number.setWidth 32 <<< 8)

/-- CTRL as read (R24): IEN [0], STRICT_PAD [1], STRICT_SPLIT [2]; the rest, SRST included, reads 0. -/
def State.ctrlWord (s : State) : Word := flagAt s.ien 0 ||| flagAt s.strictPad 1 ||| flagAt s.strictSplit 2

/-- A write to CTRL that is neither dropped nor a soft reset (R24). -/
def State.setCtrl (s : State) (wdata : Word) : State :=
  { s with ien := wdata.getLsbD 0, strictPad := wdata.getLsbD 1, strictSplit := wdata.getLsbD 2 }

/-- PARAM as read (R22). -/
def paramWord (c : Config) : Word := (BitVec.ofNat 32 (c.mbufBytes / 8) <<< 16) ||| (8#32 <<< 8) ||| 16#32

/-- ID as read (R21). -/
def idWord : Word := 0x46434301#32

/-- The FRAMEINFO word of a split into `nf` frames with a last frame of `ll` bytes (R32, R172). -/
def frameWord (nf ll : Nat) : Word := (BitVec.ofNat 32 ll <<< 16) ||| BitVec.ofNat 32 nf

/-- FRAMEINFO.NFRAMES, bits [15:0] (R32). -/
def State.nframes (s : State) : Nat := (s.frameinfo.extractLsb' 0 16).toNat

/-- FRAMEINFO.LASTLEN, bits [23:16] (R32). -/
def State.lastlen (s : State) : Nat := (s.frameinfo.extractLsb' 16 8).toNat

/-- The irq output (R214). -/
def State.irq (s : State) : Bool := s.done && s.ien

end Sys2Proof.Machine
end

