-- ==== Sys2Proof/Machine/KeySchedule.lean ====
section
/-! DEFINITION. The key schedule and LOADKEY (40_key_schedule.md). -/

namespace Sys2Proof.Machine

/-- `KS(key)[i] = (key + i * KS_STEP) mod 2^32` (R110). -/
def subkey (step key : Word) (i : Nat) : Word := key + BitVec.ofNat 32 i * step

/-- The 16 subkeys of a key (R110). -/
def keySchedule (step key : Word) : Vector Word 16 := Vector.ofFn fun i => subkey step key i.val

/-- LOADKEY (R111): the key of KEYIN becomes the active key, with its subkeys. -/
def execLoadkey (s : State) : Host.Outcome State Fault Refusal :=
  s.completed (.ok { s with akey := s.keyin, sk := keySchedule s.cfg.ksStep s.keyin, keyValid := true })

end Sys2Proof.Machine
end

