-- ==== Sys2Proof/Machine/Bus.lean ====
section
/-! DEFINITION. The host's bus transactions (20_memory.md) on the register map of 10_state.md. -/

namespace Sys2Proof.Machine

/-- The value a register holds for a read (R21 to R34). CMD reads 0 (R27). -/
def State.readReg (s : State) : Reg → Word
  | .id => idWord
  | .param => paramWord s.cfg
  | .ksstep => s.cfg.ksStep
  | .ctrl => s.ctrlWord
  | .status => s.statusWord
  | .cmd => 0#32
  | .keyin => s.keyin
  | .mlen => BitVec.ofNat 32 s.mlen
  | .din0 => s.din0
  | .din1 => s.din1
  | .dout0 => s.dout0
  | .dout1 => s.dout1
  | .frameinfo => s.frameinfo
  | .sk i => s.sk[i]

/-- The defined value of a place (R64, R65). -/
def State.readPlace (s : State) : Place → Word
  | .reg r => s.readReg r
  | .mbufByte a => (s.readByte a).setWidth 32
  | .mbufWord a => Memory.readWord s.resets s.mbuf a

/-- A place whose read while BUSY = 1 is unspecified (R45). -/
def Place.volatile : Place → Bool
  | .reg r => r.volatile
  | .mbufByte _ => true
  | .mbufWord _ => true

/-- The free value of a volatile read while BUSY = 1: a u8 for an MBUF byte, else a u32 (R45, 93 I1). -/
def volatileValue (n : Nat) : Place → Word
  | .reg _ => Config.volatileWord n
  | .mbufByte _ => (Config.volatileByte n).setWidth 32
  | .mbufWord _ => Config.volatileWord n

/-- `Read(off, size)` (R60): a bus error carries rdata 0 (R68). No read changes FCC state (R70). -/
def State.busRead (s : State) (off : Nat) (size : Width) : State :=
  match placeAt s.cfg off size with
  | none => s.answer (.read .error 0#32)
  | some p =>
    if s.busy && p.volatile then
      { s with draws := s.draws + 1 }.answer (.read .ok (volatileValue s.draws p))
    else s.answer (.read .ok (s.readPlace p))

/-- A write to a location that takes it only while BUSY = 0 (R26). -/
def State.unlessBusy (s : State) (t : State) : State := if s.busy then s.dropWrite else t

/-- An accepted or dropped write to a register that is not read-only (R24 to R30). -/
def State.writeReg (s : State) (r : Reg) (wdata : Word) : State :=
  match r with
  | .ctrl => if wdata.getLsbD 31 then s.resetEvent else s.unlessBusy (s.setCtrl wdata)
  | .status => s.acknowledge wdata
  | .cmd => s.unlessBusy (s.issue wdata)
  | .keyin => s.unlessBusy { s with keyin := wdata }
  | .mlen => s.unlessBusy (if wdata.toNat ≤ s.cfg.mbufBytes then { s with mlen := wdata.toNat } else s.dropWrite)
  | .din0 => s.unlessBusy { s with din0 := wdata }
  | .din1 => s.unlessBusy { s with din1 := wdata }
  | .id => s
  | .param => s
  | .ksstep => s
  | .dout0 => s
  | .dout1 => s
  | .frameinfo => s
  | .sk _ => s

/-- `Write(off, size, wdata)` (R60): the bus error is checked before the drop (R212); a dropped write gets OK (R26). -/
def State.busWrite (s : State) (off : Nat) (size : Width) (wdata : Word) : State :=
  match placeAt s.cfg off size with
  | none => s.answer (.write .error)
  | some (.reg r) => if r.readOnly then s.answer (.write .error) else (s.writeReg r wdata).answer (.write .ok)
  | some (.mbufByte a) => (s.unlessBusy (s.writeByte a (wdata.extractLsb' 0 8))).answer (.write .ok)
  | some (.mbufWord a) => (s.unlessBusy { s with mbuf := Memory.setWord s.mbuf a wdata }).answer (.write .ok)

/-- The offset of a host address; an address outside the window is the platform's and not the FCC's (R61, log 8). -/
def Config.offsetOf (c : Config) (addr : Nat) : Option Nat :=
  if c.base ≤ addr ∧ addr < c.base + Config.windowBytes then some (addr - c.base) else none

/-- The host's Read at a host address. -/
def State.hostRead (s : State) (addr : Nat) (size : Width) : State :=
  match Config.offsetOf s.cfg addr with
  | some off => s.busRead off size
  | none => s

/-- The host's Write at a host address. -/
def State.hostWrite (s : State) (addr : Nat) (size : Width) (wdata : Word) : State :=
  match Config.offsetOf s.cfg addr with
  | some off => s.busWrite off size wdata
  | none => s

/-- One turn of the polling loop `wait` (R97): a read of STATUS; while bit 0 of the value read is 1 the loop goes on, after
a turn of the engine (R251, log 6). -/
def State.pollStatus (s : State) : State :=
  if s.statusWord.getLsbD 0 then
    { s.busRead Reg.status.offset .word with inputs := .engine :: .poll :: s.inputs }
  else s.busRead Reg.status.offset .word

end Sys2Proof.Machine
end

