-- ==== Sys2Proof/Machine/RoundFunction.lean ====
section
/-! DEFINITION. The round function F and ROUNDF (41_round_function.md). -/

namespace Sys2Proof.Machine

/-- `F(half, subkey) = ((half XOR subkey) + (half AND subkey)) mod 2^32` (R120). -/
def roundF (half key : Word) : Word := (half ^^^ key) + (half &&& key)

/-- ROUNDF (R122): F of DIN0 and DIN1; it needs no key. -/
def execRoundf (s : State) : Host.Outcome State Fault Refusal :=
  s.completed (.ok { s with dout0 := roundF s.din0 s.din1, dout1 := 0#32 })

end Sys2Proof.Machine
end

