-- ==== Sys2Proof/Machine/Feistel.lean ====
section
/-! DEFINITION. The Feistel engine, ENCB and DECB (42_feistel_engine.md). The working registers L and R are the pair a
round maps, and the round index is the place in the list of subkeys (R40, R41, log 10). -/

namespace Sys2Proof.Machine

/-- One encryption round on (L, R) (R130). -/
def encRound (key : Word) (lr : Word × Word) : Word × Word := (lr.2, lr.1 ^^^ roundF lr.2 key)

/-- Encryption rounds on (L, R), in the order of the subkeys given. -/
def encRounds : List Word → Word × Word → Word × Word
  | [], lr => lr
  | key :: keys, lr => encRounds keys (encRound key lr)

/-- EncryptHalves (R131): SK[0] up to SK[15] from (L, R) = (h0, h1); the output is (R, L). -/
def encryptHalves (sk : Vector Word 16) (h : Word × Word) : Word × Word :=
  let lr := encRounds sk.toList h
  (lr.2, lr.1)

/-- One decryption round, on the state in the order (R, L) (R132, 90_conflicts.md C1). -/
def decRound (key : Word) (rl : Word × Word) : Word × Word := (rl.2, rl.1 ^^^ roundF rl.2 key)

/-- Decryption rounds on (R, L), in the order of the subkeys given. -/
def decRounds : List Word → Word × Word → Word × Word
  | [], rl => rl
  | key :: keys, rl => decRounds keys (decRound key rl)

/-- DecryptHalves (R133): SK[15] down to SK[0] from (R, L) = (h0, h1); the output is (L, R). -/
def decryptHalves (sk : Vector Word 16) (h : Word × Word) : Word × Word :=
  let rl := decRounds sk.toList.reverse h
  (rl.2, rl.1)

/-- An engine function on a block of bytes (R134), with the block size check (R135). -/
def onBlock (g : Word × Word → Word × Word) (b : List Byte) : Except ErrCode (List Byte) :=
  match b with
  | [b0, b1, b2, b3, b4, b5, b6, b7] =>
    let o := g (be32 b0 b1 b2 b3, be32 b4 b5 b6 b7)
    .ok (bytesBe32 o.1 ++ bytesBe32 o.2)
  | _ => .error .invalidBlockSize

/-- EncryptBlock (R134, R135). -/
def encryptBlock (sk : Vector Word 16) (b : List Byte) : Except ErrCode (List Byte) := onBlock (encryptHalves sk) b

/-- DecryptBlock (R134, R135). -/
def decryptBlock (sk : Vector Word 16) (b : List Byte) : Except ErrCode (List Byte) := onBlock (decryptHalves sk) b

/-- An engine function on the block of DIN0 and DIN1, its result in DOUT0 and DOUT1; NO_KEY first (R136, R137, R205). -/
def State.transformDin (s : State) (g : Word × Word → Word × Word) : Except ErrCode State :=
  if s.keyValid then .ok { s with dout0 := (g (s.din0, s.din1)).1, dout1 := (g (s.din0, s.din1)).2 }
  else .error .noKey

/-- ENCB (R136). -/
def execEncb (s : State) : Host.Outcome State Fault Refusal := s.completed (s.transformDin (encryptHalves s.sk))

/-- DECB (R137). -/
def execDecb (s : State) : Host.Outcome State Fault Refusal := s.completed (s.transformDin (decryptHalves s.sk))

end Sys2Proof.Machine
end

