-- ==== Sys2Proof/Machine/Codec.lean ====
section
/-! DEFINITION. The block codec, SPLIT, ENCBUF and DECBUF (44_block_codec.md). -/

namespace Sys2Proof.Machine

/-- The number of frames of a message of `len` bytes (R170). -/
def frameCount (len : Nat) : Nat := (len + 7) / 8

/-- The length of the last frame, 0 where there is none (R170, R172). -/
def lastLength (len : Nat) : Nat := if frameCount len = 0 then 0 else len - 8 * (frameCount len - 1)

/-- Split on a byte sequence: `d[8j .. min(8j + 8, len(d)))` for each j (R170). -/
def splitMessage (d : List Byte) : List (List Byte) :=
  (List.range (frameCount d.length)).map fun j => (d.drop (8 * j)).take 8

/-- Combine: concatenation in order (R171). -/
def combineFrames (cs : List (List Byte)) : List Byte := cs.flatten

/-- SPLIT (R172): TRUNCATED_INPUT in strict mode where MLEN mod 8 is not 0 (R204), else FRAMEINFO. -/
def execSplit (s : State) : Host.Outcome State Fault Refusal :=
  s.completed
    (if s.strictSplit ∧ s.mlen % 8 ≠ 0 then .error .truncatedInput
     else .ok { s with frameinfo := frameWord (frameCount s.mlen) (lastLength s.mlen) })

/-- The frame loop of ENCBUF and DECBUF (R174 to R176): frames `f`, `f + 1`, … are read, transformed and written back in
place, `count` of them, ascending. -/
def Memory.mapFrames (n : Nat) (g : Word × Word → Word × Word) : (f count : Nat) → Memory → Memory
  | _, 0, m => m
  | f, count + 1, m =>
    Memory.mapFrames n g (f + 1) count (Memory.setHalves m (8 * f) (g (Memory.readHalves n m (8 * f))))

/-- The checks of ENCBUF and DECBUF, in order (R211): NO_KEY, then for MLEN mod 8 not 0 TRUNCATED_INPUT of the strict split
or INVALID_BLOCK_SIZE of the short last frame (R178). -/
def State.bufferError (s : State) : Option ErrCode :=
  if s.keyValid = false then some .noKey
  else if s.mlen % 8 ≠ 0 then some (if s.strictSplit then .truncatedInput else .invalidBlockSize)
  else none

/-- An engine function on every frame of the message, in place, with FRAMEINFO (R174, R175). -/
def State.transformBuffer (s : State) (g : Word × Word → Word × Word) : Except ErrCode State :=
  match s.bufferError with
  | some code => .error code
  | none =>
    let nf := s.mlen / 8
    .ok { s with
      mbuf := Memory.mapFrames s.resets g 0 nf s.mbuf
      frameinfo := if nf = 0 then 0#32 else frameWord nf 8 }

/-- ENCBUF (R174). -/
def execEncbuf (s : State) : Host.Outcome State Fault Refusal := s.completed (s.transformBuffer (encryptHalves s.sk))

/-- DECBUF (R175). -/
def execDecbuf (s : State) : Host.Outcome State Fault Refusal := s.completed (s.transformBuffer (decryptHalves s.sk))

end Sys2Proof.Machine
end

