-- ==== Sys2Proof/Machine/Control.lean ====
section
/-! DEFINITION. NOP (45_control.md). -/

namespace Sys2Proof.Machine

/-- NOP (R194): no effect but the STATUS update of its completion. -/
def execNop (s : State) : Host.Outcome State Fault Refusal := s.completed (.ok s)

end Sys2Proof.Machine
end

