-- ==== Sys2Proof/Machine/Padder.lean ====
section
/-! DEFINITION. The PKCS7 padder, PAD and UNPAD (43_padder.md). -/

namespace Sys2Proof.Machine

/-- `n = 8 - (len mod 8)`, in 1..8 (R150). -/
def padCount (len : Nat) : Nat := 8 - len % 8

/-- The padding of a message of `len` bytes: n copies of the byte n (R150). -/
def padBytes (len : Nat) : List Byte := List.replicate (padCount len) (BitVec.ofNat 8 (padCount len))

/-- Pad on a byte sequence (R150). -/
def padMessage (d : List Byte) : List Byte := d ++ padBytes d.length

/-- How many of `len` bytes unpad removes for the last byte `k`: min(k, len) (R153), but all of them for k = 0 where
UNPAD_K0 is EMPTY (93_implementation_defined.md I3, log 2). -/
def unpadCount (k0 : UnpadK0) (k : Byte) (len : Nat) : Nat :=
  if k = 0#8 ∧ k0 = .empty then len else min k.toNat len

/-- Unpad on a byte sequence (R153); of the empty sequence nothing is asked. -/
def unpadMessage (k0 : UnpadK0) (d : List Byte) : List Byte :=
  match d.getLast? with
  | some k => d.take (d.length - unpadCount k0 k d.length)
  | none => []

/-- Strict validity of the padding of a non-empty byte sequence (R154). -/
def strictValid (d : List Byte) : Bool :=
  match d.getLast? with
  | some k =>
    decide (1 ≤ k.toNat) && decide (k.toNat ≤ 8) && decide (k.toNat ≤ d.length) &&
      (List.range k.toNat).all fun j => d[d.length - (j + 1)]? == some k
  | none => false

/-- PAD (R151): CAPACITY where MLEN = MBUF_BYTES (R152), else the padding is appended to the message. -/
def execPad (s : State) : Host.Outcome State Fault Refusal :=
  s.completed
    (if s.mlen = s.cfg.mbufBytes then .error .capacity
     else .ok { s with mbuf := Memory.setMany s.mbuf s.mlen (padBytes s.mlen), mlen := s.mlen + padCount s.mlen })

/-- The INVALID_PADDING check of UNPAD in strict mode (R155): k < 1, k > 8, k > MLEN, or a byte of the last k is not k. -/
def State.badPadding (s : State) (k : Byte) : Bool :=
  decide (k.toNat < 1) || decide (8 < k.toNat) || decide (s.mlen < k.toNat) ||
    (List.range k.toNat).any fun j => s.readByte (s.mlen - (j + 1)) != k

/-- UNPAD (R155): EMPTY_INPUT (R156), INVALID_PADDING in strict mode (R203), else MLEN drops. MBUF is not written (R158). -/
def execUnpad (s : State) : Host.Outcome State Fault Refusal :=
  s.completed
    (if s.mlen = 0 then .error .emptyInput
     else
       let k := s.readByte (s.mlen - 1)
       if s.strictPad && s.badPadding k then .error .invalidPadding
       else .ok { s with mlen := s.mlen - unpadCount s.cfg.unpadK0 k s.mlen })

end Sys2Proof.Machine
end

