-- ==== Sys2Proof/Machine/Engine.lean ====
section
/-! DEFINITION. The engine's turn (R192, R195) and what each event does (00_scope.md section 6, R72). -/

namespace Sys2Proof.Machine

/-- The engine's turn. While BUSY = 1 it is the completion step of the pending command, whose word is decoded first: a
word that selects no command completes with BAD_COMMAND (R192, R195). While BUSY = 0 the engine is idle (R227). -/
def State.engineTurn (s : State) : Host.Outcome State Fault Refusal :=
  match s.pend with
  | none => .next s
  | some w =>
    match decode w with
    | .ok i => exec i s
    | .error _ => s.completed (.error .badCommand)

/-- What one event does. -/
def State.onEvent (s : State) (e : Event) : Host.Outcome State Fault Refusal :=
  match e with
  | .read addr size => .next (s.hostRead addr size)
  | .write addr size wdata => .next (s.hostWrite addr size wdata)
  | .poll => .next s.pollStatus
  | .engine => s.engineTurn
  | .rst => .next s.resetEvent

end Sys2Proof.Machine
end

