-- ==== Sys2Proof/Machine/Step.lean ====
section
/-! DEFINITION. One step of the machine: the next event of the total order of R72. -/

namespace Sys2Proof.Machine

/-- One step: the first of `inputs`; when the host has nothing left to do, the engine's turn (R72, R251, log 5). -/
def step (s : State) : Host.Outcome State Fault Refusal :=
  match s.inputs with
  | [] => s.engineTurn
  | e :: rest => State.onEvent { s with inputs := rest } e

/-- `s` with the command word `w` pending and the engine's turn next, so that the next step completes exactly it (log 7).
The FCC fetches no program: a command comes to run by being latched into PEND (R75, R190). -/
def State.withFetchWord (s : State) (nbits w : Nat) : State :=
  { s with pend := some (BitVec.ofNat 32 (w % 2 ^ nbits)), inputs := .engine :: s.inputs }

end Sys2Proof.Machine
end

