-- ==== Sys2Proof/Machine/HostSyntax.lean ====
section
/-! DEFINITION. The host command syntax of 30_encoding.md section 4 (R96 to R98) and the host programs of 44_block_codec.md
section 5 (R184, R185): statements and the bus transactions they expand to. -/

namespace Sys2Proof.Machine

/-- A location (R96): a register name, `MBUF+a`, or a hex offset. -/
inductive Location where
  | reg (r : Reg)
  | mbuf (a : Nat)
  | offset (off : Nat)
  deriving DecidableEq, Repr

/-- off(LOC) (R96). -/
def Location.off : Location → Nat
  | .reg r => r.offset
  | .mbuf a => mbufOffset + a
  | .offset o => o

/-- A statement: the base statements of R96 and the pseudo-statements of R97. The value a program text expects of a read is
a check and no part of the transaction, so it is not here. -/
inductive Stmt where
  | wr32 (loc : Location) (v : Word)
  | wr8 (loc : Location) (v : Word)
  | rd32 (loc : Location)
  | rd8 (loc : Location)
  | cmd (m : Instr)
  | wait
  | run (m : Instr)
  | clrdone
  | clrwerr
  | setkey (k : Word)
  | ldmsg (bs : List Byte)
  | ldblk (h0 h1 : Word)
  deriving DecidableEq, Repr

/-- The ASCII codes of a text, for `ldmsg "text"` (R97). -/
def asciiBytes (text : String) : List Byte := text.toList.map fun ch => BitVec.ofNat 8 ch.toNat

/-- `wr32 LOC, V` as a bus transaction on a part at `base` (R96). -/
def writeWordEvent (base : Nat) (loc : Location) (v : Word) : Event := .write (base + loc.off) .word v

/-- `for j = 0 .. n-1, wr8 MBUF+j, b_j`, from address `j` on (R97). -/
def writeBytesEvents (base : Nat) : (j : Nat) → List Byte → List Event
  | _, [] => []
  | j, b :: bs => .write (base + (Location.mbuf j).off) .byte (b.setWidth 32) :: writeBytesEvents base (j + 1) bs

/-- `cmd M` (R97): a write of the command word to CMD. -/
def commandEvent (base : Nat) (m : Instr) : Event := writeWordEvent base (.reg .cmd) (encode m)

/-- The exact expansion of a statement (R96, R97), each `wait` kept as a polling loop (R98). -/
def Stmt.expand (base : Nat) : Stmt → List Event
  | .wr32 loc v => [writeWordEvent base loc v]
  | .wr8 loc v => [.write (base + loc.off) .byte v]
  | .rd32 loc => [.read (base + loc.off) .word]
  | .rd8 loc => [.read (base + loc.off) .byte]
  | .cmd m => [commandEvent base m]
  | .wait => [.poll]
  | .run m => [commandEvent base m, .poll]
  | .clrdone => [writeWordEvent base (.reg .status) 0x00000002#32]
  | .clrwerr => [writeWordEvent base (.reg .status) 0x00000008#32]
  | .setkey k => [writeWordEvent base (.reg .keyin) k, commandEvent base .loadkey, .poll]
  | .ldmsg bs => writeBytesEvents base 0 bs ++ [writeWordEvent base (.reg .mlen) (BitVec.ofNat 32 bs.length)]
  | .ldblk h0 h1 => [writeWordEvent base (.reg .din0) h0, writeWordEvent base (.reg .din1) h1]

/-- A host program as its list of transactions (R98). -/
def expandProgram (base : Nat) (p : List Stmt) : List Event := p.flatMap (Stmt.expand base)

/-- The host starts on a program once it has done what it has still to do (log 7). -/
def State.runHost (s : State) (p : List Stmt) : State := { s with inputs := s.inputs ++ expandProgram s.cfg.base p }

/-- `rd8 MBUF+0 .. MBUF+(n-1)` (R184, R185). -/
def readBack (n : Nat) : List Stmt := (List.range n).map fun a => .rd8 (.mbuf a)

/-- Host encrypt (R184), up to the read of MLEN; the host then reads back that many bytes. -/
def hostEncrypt (m : List Byte) : List Stmt := [.ldmsg m, .run .pad, .run .encbuf, .rd32 (.reg .mlen)]

/-- Host decrypt (R185), up to the read of MLEN; the host then reads back that many bytes. -/
def hostDecrypt (c : List Byte) : List Stmt := [.ldmsg c, .run .decbuf, .run .unpad, .rd32 (.reg .mlen)]

end Sys2Proof.Machine
end

