-- ==== Sys2Proof/Safety.lean ====
section
/-! DEFINITION. The legal states of the FCC: the relations between fields that 10_state.md states and every step keeps;
and the code a command's checks give (60_exceptions.md). -/

namespace Sys2Proof.Machine

/-- MBUF is in its canonical form and lies inside MBUF_BYTES (R33). -/
def State.MbufLegal (s : State) : Prop := Memory.wf s.mbuf ∧ Memory.within s.cfg.mbufBytes s.mbuf

/-- MLEN is in 0..MBUF_BYTES (R30). -/
def State.MlenLegal (s : State) : Prop := s.mlen ≤ s.cfg.mbufBytes

/-- With a key, SK[i] = (AKEY + i * KS_STEP) mod 2^32 (R34). Without one, AKEY and SK are 0: only LOADKEY writes them and a
reset clears them (R113, R50). -/
def State.KeysLegal (s : State) : Prop :=
  if s.keyValid then ∀ i : Fin 16, s.sk[i].toNat = (s.akey.toNat + i.val * s.cfg.ksStep.toNat) % 2 ^ 32
  else s.akey = 0#32 ∧ ∀ i : Fin 16, s.sk[i] = 0#32

/-- NFRAMES is at most MBUF_BYTES/8, LASTLEN is at most 8 and is 0 exactly when NFRAMES is 0, and bits [31:24] read 0
(R32, R172). -/
def State.FrameinfoLegal (s : State) : Prop :=
  s.nframes ≤ s.cfg.mbufBytes / 8 ∧ s.lastlen ≤ 8 ∧ (s.lastlen = 0 ↔ s.nframes = 0) ∧ s.frameinfo.extractLsb' 24 8 = 0#8

/-- The code a command completes with: the first check of R211 that fails. UNPAD's padding check is the validity of R154 of
the message. -/
def State.firstFailure (s : State) (i : Instr) : ErrCode :=
  if s.keyValid = false ∧ i ∈ [Instr.encb, .decb, .encbuf, .decbuf] then .noKey
  else if s.mlen = 0 ∧ i = .unpad then .emptyInput
  else if s.mlen = s.cfg.mbufBytes ∧ i = .pad then .capacity
  else if s.mlen % 8 ≠ 0 ∧ s.strictSplit = true ∧ i ∈ [Instr.split, .encbuf, .decbuf] then .truncatedInput
  else if s.mlen % 8 ≠ 0 ∧ i ∈ [Instr.encbuf, .decbuf] then .invalidBlockSize
  else if s.strictPad = true ∧ i = .unpad ∧ strictValid s.message = false then .invalidPadding
  else .ok

/-- The invariant of the FCC. -/
def State.Inv (s : State) : Prop :=
  s.cfg.legal = true ∧ s.MbufLegal ∧ s.MlenLegal ∧ s.KeysLegal ∧ s.FrameinfoLegal

end Sys2Proof.Machine
end

