-- ==== Sys2Proof/Certificates/Slice0/Obligations.lean ====
section
/-! DEFINITION. The statements for the provers. A completed command's state is written out as a record update, so that each
of them says what the command leaves unchanged too. Registers are named by their offsets of R20. -/

open Sys2Proof Sys2Proof.Machine

/-! ### Encoding (30_encoding.md) -/

/-- Words written out from R90 and R91 decode to the commands they stand for, and reserved words (R93, R94) are refused by
name. -/
def Obligations.CommandWordsDecodeAsTabled : Prop :=
  decode 0x00000000#32 = .ok .nop ∧ decode 0x00000001#32 = .ok .loadkey ∧ decode 0x00000002#32 = .ok .roundf ∧
  decode 0x00000003#32 = .ok .encb ∧ decode 0x00000004#32 = .ok .decb ∧ decode 0x00000005#32 = .ok .pad ∧
  decode 0x00000006#32 = .ok .unpad ∧ decode 0x00000007#32 = .ok .split ∧ decode 0x00000008#32 = .ok .encbuf ∧
  decode 0x00000009#32 = .ok .decbuf ∧ decode 0x0000000A#32 = .error .reservedOpcode ∧
  decode 0x000000FF#32 = .error .reservedOpcode ∧ decode 0x00000101#32 = .error .reservedBits ∧
  decode 0x80000003#32 = .error .reservedBits

/-- Every well-formed command is read back from its word, no other word decodes to it, and the accepted words are exactly
those with RSV = 0 and a defined OPCODE (R90, R91, R94). -/
def Obligations.DecodeAndEncodeAgree : Prop :=
  (∀ i : Instr, i.wellFormed = true → decode (encode i) = .ok i) ∧
  (∀ (w : Word) (i : Instr), decode w = .ok i → w = encode i) ∧
  ∀ w : Word, WellFormed.word w = true ↔ ∃ i, decode w = .ok i

/-- R93, R94, R208: a pending word with RSV not 0 or OPCODE in 0x0A..0xFF completes with BAD_COMMAND and changes nothing
else but the STATUS update; the decoder accepts exactly the words 0 to 9. -/
def Obligations.OtherWordsCompleteWithBadCommand : Prop :=
  (∀ (s : State) (w : Word), s.pend = some w → w.extractLsb' 8 24 ≠ 0#24 ∨ 0x0A ≤ (w.extractLsb' 0 8).toNat →
    s.engineTurn = .next { s with errCode := .badCommand, done := true, pend := none }) ∧
  ∀ w : Word, (∃ i, decode w = .ok i) ↔ w.toNat ≤ 9

/-! ### Steps (45_control.md, 00_scope.md section 6) -/

/-- A step runs the decoded command at the engine's turn (R192, R195); what the step adds around exec is that it takes the
engine's turn off the inputs. That a step with no input left is the engine's turn too is the model's choice (log 5). -/
def Obligations.StepRunsThePendingCommand : Prop :=
  ∀ (s : State) (w : Word) (i : Instr), s.pend = some w → decode w = .ok i → i.wellFormed = true →
    (∀ rest, s.inputs = .engine :: rest → step s = exec i { s with inputs := rest }) ∧
    (s.inputs = [] → step s = exec i s)

/-- No state stops the machine: every step and every command answers a next state (R10, R200, R209, R210). -/
def Obligations.EveryStepAnswersANextState : Prop :=
  (∀ s : State, ∃ t, step s = .next t) ∧ ∀ (i : Instr) (s : State), ∃ t, exec i s = .next t

/-- R190: a CMD write while BUSY = 0 latches the word, whatever it is, and changes nothing else. -/
def Obligations.IdleCommandWriteIssues : Prop :=
  ∀ (s : State) (w : Word) (rest : List Event), s.busy = false →
    s.inputs = .write (s.cfg.base + 0x014) .word w :: rest →
    ∃ t, step s = .next t ∧ t.busy = true ∧
      t = { s with pend := some w, inputs := rest, replies := .write .ok :: s.replies }

/-- R191: a CMD write while BUSY = 1 is dropped with an OK response and sets WERR. -/
def Obligations.BusyCommandWriteIsDropped : Prop :=
  ∀ (s : State) (p w : Word) (rest : List Event), s.pend = some p →
    s.inputs = .write (s.cfg.base + 0x014) .word w :: rest →
    step s = .next { s with werr := true, inputs := rest, replies := .write .ok :: s.replies }

/-- R193: every completion, of a command word of any kind, sets DONE, clears BUSY and PEND, leaves WERR, and changes
KEYVALID only where LOADKEY succeeds. ERRCODE is the outcome of this word: BAD_COMMAND where it selects no command, else the
first check of R211 that fails. -/
def Obligations.CompletionUpdatesStatus : Prop :=
  ∀ (s : State) (w : Word), s.pend = some w → ∃ t, s.engineTurn = .next t ∧
    t.done = true ∧ t.busy = false ∧ t.pend = none ∧ t.werr = s.werr ∧
    (t.keyValid ≠ s.keyValid → decode w = .ok .loadkey ∧ t.errCode = .ok ∧ t.keyValid = true) ∧
    (∀ i, decode w = .ok i → exec i s = .next t ∧ t.errCode = s.firstFailure i) ∧ ∀ e, decode w = .error e → t.errCode = .badCommand

/-- R200: a command or a pending word that completes with a code other than OK changed nothing but STATUS, and nothing of
what the host has still to do. -/
def Obligations.RaisingChangesOnlyStatus : Prop :=
  (∀ (i : Instr) (s : State), ∃ t, exec i s = .next t ∧
    (t.errCode ≠ .ok → t = { s with errCode := t.errCode, done := true, pend := none })) ∧
  ∀ (s : State) (w : Word), s.pend = some w → ∃ t, s.engineTurn = .next t ∧
    (t.errCode ≠ .ok → t = { s with errCode := t.errCode, done := true, pend := none })

/-- R211: each command reports the first check that fails in the order of the rule (R202 to R204, R206, R207); a word that
selects no command reports BAD_COMMAND first. -/
def Obligations.ErrorCodesInCheckOrder : Prop :=
  (∀ (s : State) (w : Word) (e : DecodeError), s.pend = some w → decode w = .error e →
    ∃ t, s.engineTurn = .next t ∧ t.errCode = .badCommand) ∧
  ∀ (i : Instr) (s : State), ∃ t, exec i s = .next t ∧ t.errCode = s.firstFailure i

/-- From every state the machine stops being busy within one step more than the host's inputs are long (R251). The bound
rests on the model's choices of logs 5 and 6. -/
def Obligations.PendingCommandCompletes : Prop :=
  ∀ s : State, ∃ k t, k ≤ s.inputs.length + 1 ∧ Host.Core.run core k s = .next t ∧ t.busy = false

/-- While BUSY = 1 no host event but a soft reset changes anything a command reads or writes: only WERR, DONE and the
model's own fields may change (R75, R26, R74). -/
def Obligations.OperandsAreStableWhileBusy : Prop :=
  ∀ (s : State) (e : Event) (rest : List Event), s.busy = true → s.inputs = e :: rest → e ≠ .engine → e ≠ .rst →
    (∀ wdata : Word, e = .write (s.cfg.base + 0x00C) .word wdata → wdata.getLsbD 31 = false) →
    ∃ t we dn dr ins reps, step s = .next t ∧
      t = { s with werr := we, done := dn, draws := dr, inputs := ins, replies := reps }

/-- The statement `cmd M` and then the engine's turn run M on the operands that stood at its issue (R97, R75). -/
def Obligations.CmdStatementRunsItsCommand : Prop :=
  ∀ (s : State) (i : Instr) (rest : List Event), s.busy = false →
    Host.Core.run core 2 { s with inputs := (Stmt.cmd i).expand s.cfg.base ++ .engine :: rest } =
      exec i { s with pend := some (encode i), inputs := rest, replies := .write .ok :: s.replies }

/-! ### Reset (70_reset_and_hazards.md, R50) -/

/-- R231: a hardware reset sets every piece of the FCC's state in one step, abandons a pending command, and makes each MBUF
byte a new free value; after it a command that uses the key raises NO_KEY. -/
def Obligations.HardwareResetSetsResetValues : Prop :=
  ∀ (s : State) (rest : List Event), s.inputs = .rst :: rest → ∃ t, step s = .next t ∧
    t.ctrlWord = 0#32 ∧ t.statusWord = 0#32 ∧ t.keyin = 0#32 ∧ t.akey = 0#32 ∧ (∀ i : Fin 16, t.sk[i] = 0#32) ∧
    t.din0 = 0#32 ∧ t.din1 = 0#32 ∧ t.dout0 = 0#32 ∧ t.dout1 = 0#32 ∧ t.mlen = 0 ∧ t.frameinfo = 0#32 ∧
    t.pend = none ∧ t.busy = false ∧ t.keyValid = false ∧ t.irq = false ∧
    (∀ a, t.readByte a = Config.mbufAtReset t.resets a) ∧ t.resets = s.resets + 1 ∧
    t.cfg = s.cfg ∧ t.inputs = rest ∧ t.replies = s.replies ∧
    ∀ i ∈ [Instr.encb, .decb, .encbuf, .decbuf],
      exec i t = .next { t with errCode := .noKey, done := true, pend := none }

/-- R232: a CTRL write with bit 31 set has the effect of a hardware reset, whatever BUSY is and whatever the other bits
are, with an OK response. -/
def Obligations.SoftResetEqualsHardwareReset : Prop :=
  ∀ (s : State) (wdata : Word) (rest : List Event), wdata.getLsbD 31 = true →
    s.inputs = .write (s.cfg.base + 0x00C) .word wdata :: rest →
    ∃ t, step { s with inputs := .rst :: rest } = .next t ∧ t.ctrlWord = 0#32 ∧
      step s = .next { t with replies := .write .ok :: s.replies }

/-- The reset state meets the invariant. -/
def Obligations.ResetStateMeetsInvariant : Prop := State.reset.Inv

/-- Every step keeps the invariant: legal parameters, MBUF in its canonical form inside MBUF_BYTES, MLEN at most MBUF_BYTES,
the key-schedule invariant of R34, and a legal FRAMEINFO. -/
def Obligations.StepKeepsInvariant : Prop :=
  ∀ s t : State, s.Inv → step s = .next t → t.Inv

/-! ### Registers and the bus (10_state.md, 20_memory.md) -/

/-- STATUS as read: its five fields at their bits, every other bit 0 (R25), whatever BUSY is; and the number of each error
code (R201). -/
def Obligations.StatusWordLayout : Prop :=
  ∀ s : State,
    s.statusWord.getLsbD 0 = s.pend.isSome ∧ s.statusWord.getLsbD 1 = s.done ∧ s.statusWord.getLsbD 2 = s.keyValid ∧
    s.statusWord.getLsbD 3 = s.werr ∧ s.statusWord.extractLsb' 4 4 = 0#4 ∧
    s.statusWord.extractLsb' 8 4 = s.errCode.number ∧ s.statusWord.extractLsb' 12 20 = 0#20 ∧
    s.errCode.number = (match s.errCode with
      | .ok => 0#4
      | .invalidBlockSize => 1#4
      | .invalidPadding => 2#4
      | .truncatedInput => 3#4
      | .noKey => 4#4
      | .capacity => 5#4
      | .emptyInput => 6#4
      | .badCommand => 7#4) ∧
    s.errCode.number.toNat < 8 ∧
    ∀ rest, s.inputs = .read (s.cfg.base + 0x010) .word :: rest →
      step s = .next { s with inputs := rest, replies := .read .ok s.statusWord :: s.replies }

/-- R21, R22, R23 and the CMD read of R27: the constants read so whatever BUSY is, and writes to ID, PARAM and KSSTEP are
bus errors. -/
def Obligations.IdentificationRegisters : Prop :=
  ∀ (s : State) (rest : List Event), s.cfg.legal = true →
    (s.inputs = .read (s.cfg.base + 0x000) .word :: rest →
      step s = .next { s with inputs := rest, replies := .read .ok 0x46434301#32 :: s.replies }) ∧
    (s.inputs = .read (s.cfg.base + 0x004) .word :: rest → ∃ v : Word,
      step s = .next { s with inputs := rest, replies := .read .ok v :: s.replies } ∧
      v.extractLsb' 0 8 = 16#8 ∧ v.extractLsb' 8 8 = 8#8 ∧ (v.extractLsb' 16 16).toNat = s.cfg.mbufBytes / 8 ∧
      2 ≤ s.cfg.mbufBytes / 8 ∧ s.cfg.mbufBytes / 8 ≤ 8192 ∧ (s.cfg.mbufBytes = 1024 → v = 0x00800810#32)) ∧
    (s.inputs = .read (s.cfg.base + 0x008) .word :: rest →
      step s = .next { s with inputs := rest, replies := .read .ok s.cfg.ksStep :: s.replies }) ∧
    (s.inputs = .read (s.cfg.base + 0x014) .word :: rest →
      step s = .next { s with inputs := rest, replies := .read .ok 0#32 :: s.replies }) ∧
    ∀ (off : Nat) (wdata : Word), off ∈ [0x000, 0x004, 0x008] →
      s.inputs = .write (s.cfg.base + off) .word wdata :: rest →
      step s = .next { s with inputs := rest, replies := .write .error :: s.replies }

/-- While BUSY = 0 a 4-byte read of a register returns what it holds and changes nothing (R24, R25, R28 to R34). In any state
the CTRL word has its three fields at their bits and 0 in every other bit, SRST among them (R24). -/
def Obligations.IdleReadsReturnTheRegisters : Prop :=
  (∀ s : State, s.ctrlWord.getLsbD 0 = s.ien ∧ s.ctrlWord.getLsbD 1 = s.strictPad ∧
    s.ctrlWord.getLsbD 2 = s.strictSplit ∧ s.ctrlWord.extractLsb' 3 29 = 0#29) ∧
  ∀ (s : State) (off : Nat) (v : Word) (rest : List Event), s.busy = false →
    ((off, v) ∈ [(0x00C, s.ctrlWord), (0x010, s.statusWord), (0x018, s.keyin), (0x01C, BitVec.ofNat 32 s.mlen),
        (0x020, s.din0), (0x024, s.din1), (0x028, s.dout0), (0x02C, s.dout1), (0x030, s.frameinfo)] ∨
      ∃ i : Fin 16, off = 0x040 + 4 * i.val ∧ v = s.sk[i]) →
    s.inputs = .read (s.cfg.base + off) .word :: rest →
    step s = .next { s with inputs := rest, replies := .read .ok v :: s.replies }

/-- While BUSY = 1 the stable registers read their values (CTRL by its fields, R24), and a read of volatile state answers OK
with a value that nothing constrains and changes nothing but the counter of such reads (R45). -/
def Obligations.BusyReadsAreStableOrFree : Prop :=
  ∀ (s : State) (rest : List Event), s.cfg.legal = true → s.busy = true →
    (s.inputs = .read (s.cfg.base + 0x00C) .word :: rest → ∃ v : Word,
      step s = .next { s with inputs := rest, replies := .read .ok v :: s.replies } ∧ v.getLsbD 0 = s.ien ∧
      v.getLsbD 1 = s.strictPad ∧ v.getLsbD 2 = s.strictSplit ∧ v.extractLsb' 3 29 = 0#29) ∧
    (∀ off v, (off, v) ∈ [(0x010, s.statusWord), (0x018, s.keyin), (0x020, s.din0), (0x024, s.din1)] →
      s.inputs = .read (s.cfg.base + off) .word :: rest →
      step s = .next { s with inputs := rest, replies := .read .ok v :: s.replies }) ∧
    ∀ off size, (size = .word ∧ off ∈ [0x01C, 0x028, 0x02C, 0x030]) ∨
        (size = .word ∧ ∃ i : Fin 16, off = 0x040 + 4 * i.val) ∨
        (∃ a, a < s.cfg.mbufBytes ∧ off = 0x1000 + a ∧ (size = .byte ∨ (size = .word ∧ a % 4 = 0))) →
      s.inputs = .read (s.cfg.base + off) size :: rest →
      ∃ v, step s = .next { s with inputs := rest, draws := s.draws + 1, replies := .read .ok v :: s.replies }

/-- No read changes FCC state (R70): it may add a response and advance the counter of volatile reads. -/
def Obligations.ReadsChangeNoFccState : Prop :=
  ∀ (s : State) (addr : Nat) (size : Width) (rest : List Event), s.inputs = .read addr size :: rest →
    ∃ dr reps, step s = .next { s with inputs := rest, draws := dr, replies := reps } ∧
      (reps = s.replies ∨ ∃ r, reps = r :: s.replies)

/-- R68, R209: an access to a reserved offset, a register access that is not 4 aligned bytes, an MBUF access of 2 bytes or of
4 unaligned bytes, and a write to a read-only register answer ERROR, with rdata 0 for a read, and change no FCC state. -/
def Obligations.IllegalAccessesAreBusErrors : Prop :=
  ∀ (s : State) (off : Nat) (size : Width) (rest : List Event), off < 0x20000 →
    (((0x034 ≤ off ∧ off < 0x040) ∨ (0x080 ≤ off ∧ off < 0x1000) ∨ 0x1000 + s.cfg.mbufBytes ≤ off ∨
        (off < 0x080 ∧ (size ≠ .word ∨ off % 4 ≠ 0)) ∨
        (0x1000 ≤ off ∧ (size = .half ∨ (size = .word ∧ (off - 0x1000) % 4 ≠ 0)))) →
      (s.inputs = .read (s.cfg.base + off) size :: rest →
        step s = .next { s with inputs := rest, replies := .read .error 0#32 :: s.replies }) ∧
      ∀ wdata, s.inputs = .write (s.cfg.base + off) size wdata :: rest →
        step s = .next { s with inputs := rest, replies := .write .error :: s.replies }) ∧
    ((off ∈ [0x000, 0x004, 0x008, 0x028, 0x02C, 0x030] ∨ ∃ i : Fin 16, off = 0x040 + 4 * i.val) →
      ∀ wdata, s.inputs = .write (s.cfg.base + off) size wdata :: rest →
        step s = .next { s with inputs := rest, replies := .write .error :: s.replies })

/-- A read of a register or MBUF byte and a write to a writable one, with a legal size and alignment, answer OK, even where
the write is dropped (R67 d, e). -/
def Obligations.LegalAccessesAnswerOk : Prop :=
  ∀ (s : State) (off : Nat) (size : Width) (rest : List Event), s.cfg.legal = true →
    (((size = .word ∧ off % 4 = 0 ∧ (off < 0x034 ∨ (0x040 ≤ off ∧ off < 0x080))) ∨
        (0x1000 ≤ off ∧ off < 0x1000 + s.cfg.mbufBytes ∧ (size = .byte ∨ (size = .word ∧ (off - 0x1000) % 4 = 0)))) →
      s.inputs = .read (s.cfg.base + off) size :: rest →
      ∃ t v, step s = .next t ∧ t.replies = .read .ok v :: s.replies) ∧
    (((size = .word ∧ off ∈ [0x00C, 0x010, 0x014, 0x018, 0x01C, 0x020, 0x024]) ∨
        (0x1000 ≤ off ∧ off < 0x1000 + s.cfg.mbufBytes ∧ (size = .byte ∨ (size = .word ∧ (off - 0x1000) % 4 = 0)))) →
      ∀ wdata, s.inputs = .write (s.cfg.base + off) size wdata :: rest →
      ∃ t, step s = .next t ∧ t.replies = .write .ok :: s.replies)

/-- R26, R210: a dropped write answers OK, sets WERR and leaves every other piece of state as it was; and only a write of 1
to STATUS bit 3, or a reset, clears WERR. -/
def Obligations.DroppedWritesSetOnlyWerr : Prop :=
  (∀ (s : State) (off : Nat) (size : Width) (wdata : Word) (rest : List Event), s.cfg.legal = true →
    (size = .word ∧ s.busy = true ∧ off = 0x00C ∧ wdata.getLsbD 31 = false) ∨
      (size = .word ∧ s.busy = true ∧ off ∈ [0x014, 0x018, 0x01C, 0x020, 0x024]) ∨
      (s.busy = true ∧ ∃ a, a < s.cfg.mbufBytes ∧ off = 0x1000 + a ∧ (size = .byte ∨ (size = .word ∧ a % 4 = 0))) ∨
      (size = .word ∧ off = 0x01C ∧ s.cfg.mbufBytes < wdata.toNat) →
    s.inputs = .write (s.cfg.base + off) size wdata :: rest →
    step s = .next { s with werr := true, inputs := rest, replies := .write .ok :: s.replies }) ∧
  ∀ s t : State, step s = .next t → s.werr = true → t.werr = false →
    (∃ rest, s.inputs = .rst :: rest) ∨
    (∃ wdata rest, s.inputs = .write (s.cfg.base + 0x00C) .word wdata :: rest ∧ wdata.getLsbD 31 = true) ∨
    ∃ wdata rest, s.inputs = .write (s.cfg.base + 0x010) .word wdata :: rest ∧ wdata.getLsbD 3 = true

/-- A write to STATUS clears DONE where bit 1 is set and WERR where bit 3 is set, and nothing else, whatever BUSY is
(R25, R216). -/
def Obligations.StatusWriteClearsByOne : Prop :=
  ∀ (s : State) (wdata : Word) (rest : List Event), s.inputs = .write (s.cfg.base + 0x010) .word wdata :: rest →
    ∃ t, step s = .next t ∧ t.done = (if wdata.getLsbD 1 = true then false else s.done) ∧
      t.werr = (if wdata.getLsbD 3 = true then false else s.werr) ∧
      t = { s with done := t.done, werr := t.werr, inputs := rest, replies := .write .ok :: s.replies }

/-- While BUSY = 0 a write to CTRL (bit 31 clear), KEYIN, MLEN (at most MBUF_BYTES), DIN0 or DIN1 stores its value and
nothing else (R24, R28, R29, R30). -/
def Obligations.IdleWritesStore : Prop :=
  ∀ (s : State) (v : Word) (rest : List Event), s.busy = false →
    (v.getLsbD 31 = false → s.inputs = .write (s.cfg.base + 0x00C) .word v :: rest →
      step s = .next { s with
        ien := v.getLsbD 0, strictPad := v.getLsbD 1, strictSplit := v.getLsbD 2,
        inputs := rest, replies := .write .ok :: s.replies }) ∧
    (s.inputs = .write (s.cfg.base + 0x018) .word v :: rest →
      step s = .next { s with keyin := v, inputs := rest, replies := .write .ok :: s.replies }) ∧
    (v.toNat ≤ s.cfg.mbufBytes → s.inputs = .write (s.cfg.base + 0x01C) .word v :: rest →
      step s = .next { s with mlen := v.toNat, inputs := rest, replies := .write .ok :: s.replies }) ∧
    (s.inputs = .write (s.cfg.base + 0x020) .word v :: rest →
      step s = .next { s with din0 := v, inputs := rest, replies := .write .ok :: s.replies }) ∧
    (s.inputs = .write (s.cfg.base + 0x024) .word v :: rest →
      step s = .next { s with din1 := v, inputs := rest, replies := .write .ok :: s.replies })

/-- R64: the 8-bit lanes of MBUF while BUSY = 0. -/
def Obligations.MbufByteLanes : Prop :=
  ∀ (s : State) (a : Nat) (rest : List Event), s.cfg.legal = true → s.busy = false → a < s.cfg.mbufBytes →
    (s.inputs = .read (s.cfg.base + (0x1000 + a)) .byte :: rest →
      step s = .next { s with inputs := rest, replies := .read .ok ((s.readByte a).setWidth 32) :: s.replies }) ∧
    ∀ wdata : Word, s.inputs = .write (s.cfg.base + (0x1000 + a)) .byte wdata :: rest →
      ∃ t, step s = .next t ∧ t.readByte a = wdata.extractLsb' 0 8 ∧ (∀ b, b ≠ a → t.readByte b = s.readByte b) ∧
        t = { s with mbuf := t.mbuf, inputs := rest, replies := .write .ok :: s.replies }

/-- R65: the 32-bit lanes of MBUF are big-endian while BUSY = 0, and the words at 8f and 8f + 4 are the halves of frame f. -/
def Obligations.MbufWordLanesAreBigEndian : Prop :=
  ∀ (s : State) (a : Nat) (rest : List Event), s.cfg.legal = true → s.busy = false → a < s.cfg.mbufBytes → a % 4 = 0 →
    (s.inputs = .read (s.cfg.base + (0x1000 + a)) .word :: rest → ∃ v : Word,
      step s = .next { s with inputs := rest, replies := .read .ok v :: s.replies } ∧
      v.extractLsb' 24 8 = s.readByte a ∧ v.extractLsb' 16 8 = s.readByte (a + 1) ∧
      v.extractLsb' 8 8 = s.readByte (a + 2) ∧ v.extractLsb' 0 8 = s.readByte (a + 3) ∧
      ∀ f, (a = 8 * f → v = (s.frameHalves f).1) ∧ (a = 8 * f + 4 → v = (s.frameHalves f).2)) ∧
    ∀ wdata : Word, s.inputs = .write (s.cfg.base + (0x1000 + a)) .word wdata :: rest →
      ∃ t, step s = .next t ∧ t.readByte a = wdata.extractLsb' 24 8 ∧ t.readByte (a + 1) = wdata.extractLsb' 16 8 ∧
        t.readByte (a + 2) = wdata.extractLsb' 8 8 ∧ t.readByte (a + 3) = wdata.extractLsb' 0 8 ∧
        (∀ b, b < a ∨ a + 4 ≤ b → t.readByte b = s.readByte b) ∧
        t = { s with mbuf := t.mbuf, inputs := rest, replies := .write .ok :: s.replies }

/-- A transaction outside the window is the platform's: the FCC neither changes nor responds. DEDUCED from R61 (log 8). -/
def Obligations.TransactionsOutsideTheWindowPassBy : Prop :=
  ∀ (s : State) (addr : Nat) (size : Width) (wdata : Word) (rest : List Event),
    addr < s.cfg.base ∨ s.cfg.base + 0x20000 ≤ addr →
    s.inputs = .read addr size :: rest ∨ s.inputs = .write addr size wdata :: rest →
    step s = .next { s with inputs := rest }

/-- R214: irq is DONE and IEN. It rises in a completion with IEN = 1 and when IEN is set while DONE = 1; it falls when DONE
is cleared, when IEN is cleared, and in a reset. -/
def Obligations.IrqFollowsDoneAndIen : Prop :=
  ∀ s : State, (s.irq = true ↔ s.done = true ∧ s.ien = true) ∧
    (∀ w, s.pend = some w → ∃ t, s.engineTurn = .next t ∧ t.irq = s.ien) ∧
    (∀ rest, s.inputs = .rst :: rest → ∃ t, step s = .next t ∧ t.irq = false) ∧
    (∀ (wdata : Word) rest, wdata.getLsbD 31 = true → s.inputs = .write (s.cfg.base + 0x00C) .word wdata :: rest →
      ∃ t, step s = .next t ∧ t.irq = false) ∧
    (∀ (wdata : Word) rest, wdata.getLsbD 1 = true → s.inputs = .write (s.cfg.base + 0x010) .word wdata :: rest →
      ∃ t, step s = .next t ∧ t.irq = false) ∧
    ∀ (wdata : Word) rest, s.busy = false → wdata.getLsbD 31 = false →
      s.inputs = .write (s.cfg.base + 0x00C) .word wdata :: rest →
      ∃ t, step s = .next t ∧ t.irq = (s.done && wdata.getLsbD 0)

/-- R113: AKEY and SK change only in the completion of LOADKEY or in a reset, which clears them to 0; a host write to SK is a
bus error. -/
def Obligations.OnlyLoadkeyChangesTheSubkeys : Prop :=
  (∀ s t : State, step s = .next t → t.akey ≠ s.akey ∨ t.sk ≠ s.sk →
    (∃ w, s.pend = some w ∧ decode w = .ok .loadkey ∧ (s.inputs = [] ∨ ∃ rest, s.inputs = .engine :: rest)) ∨
    (((∃ rest, s.inputs = .rst :: rest) ∨
        ∃ wdata rest, s.inputs = .write (s.cfg.base + 0x00C) .word wdata :: rest ∧ wdata.getLsbD 31 = true) ∧
      t.akey = 0#32 ∧ ∀ i : Fin 16, t.sk[i] = 0#32)) ∧
  ∀ (s : State) (i : Fin 16) (size : Width) (wdata : Word) (rest : List Event),
    s.inputs = .write (s.cfg.base + (0x040 + 4 * i.val)) size wdata :: rest →
    step s = .next { s with inputs := rest, replies := .write .error :: s.replies }

/-- MLEN changes only in a completion of PAD or UNPAD, by a host write of a legal value while BUSY = 0, or in a reset
(R30). -/
def Obligations.MlenChangesOnlyAsTheRuleSays : Prop :=
  ∀ s t : State, step s = .next t → t.mlen ≠ s.mlen →
    (∃ w, s.pend = some w ∧ (decode w = .ok .pad ∨ decode w = .ok .unpad) ∧
      (s.inputs = [] ∨ ∃ rest, s.inputs = .engine :: rest)) ∨
    (∃ rest, s.inputs = .rst :: rest) ∨
    (∃ wdata rest, s.inputs = .write (s.cfg.base + 0x00C) .word wdata :: rest ∧ wdata.getLsbD 31 = true) ∨
    ∃ wdata rest, s.inputs = .write (s.cfg.base + 0x01C) .word wdata :: rest ∧ s.busy = false ∧
      wdata.toNat ≤ s.cfg.mbufBytes ∧ t.mlen = wdata.toNat

/-- The frame of all ten commands (R71, R91): what each may write, and that it leaves everything else alone. The bytes PAD
stores to are those from MLEN on, 8 - MLEN mod 8 of them; those of ENCBUF and DECBUF lie below MLEN. -/
def Obligations.CommandsWriteOnlyTheirResults : Prop :=
  ∀ (i : Instr) (s : State), ∃ t, exec i s = .next t ∧
    t.ien = s.ien ∧ t.strictPad = s.strictPad ∧ t.strictSplit = s.strictSplit ∧ t.werr = s.werr ∧
    t.keyin = s.keyin ∧ t.din0 = s.din0 ∧ t.din1 = s.din1 ∧ t.resets = s.resets ∧ t.draws = s.draws ∧
    t.inputs = s.inputs ∧ t.replies = s.replies ∧ t.cfg = s.cfg ∧
    (i ≠ .loadkey → t.akey = s.akey ∧ t.sk = s.sk ∧ t.keyValid = s.keyValid) ∧
    (i ∉ [Instr.roundf, .encb, .decb] → t.dout0 = s.dout0 ∧ t.dout1 = s.dout1) ∧
    (i ∉ [Instr.pad, .unpad] → t.mlen = s.mlen) ∧
    (i ∉ [Instr.split, .encbuf, .decbuf] → t.frameinfo = s.frameinfo) ∧
    (i ∉ [Instr.pad, .encbuf, .decbuf] → ∀ a, t.readByte a = s.readByte a) ∧
    (i = .pad → ∀ a, a < s.mlen ∨ s.mlen + (8 - s.mlen % 8) ≤ a → t.readByte a = s.readByte a) ∧
    (i ∈ [Instr.encbuf, .decbuf] → ∀ a, s.mlen ≤ a → t.readByte a = s.readByte a)

/-! ### NOP, the key schedule and the round function (45, 40, 41) -/

/-- R194: NOP completes with OK and does nothing else; it clears a previous ERRCODE and leaves WERR. -/
def Obligations.NopOnlyCompletes : Prop :=
  encode .nop = 0x00000000#32 ∧
  ∀ s : State, exec .nop s = .next { s with errCode := .ok, done := true, pend := none }

/-- R111, R114: LOADKEY makes KEYIN the active key and replaces all 16 subkeys by its schedule, whatever KEYVALID was. -/
def Obligations.LoadkeySchedulesTheKey : Prop :=
  encode .loadkey = 0x00000001#32 ∧
  ∀ s : State, ∃ t, exec .loadkey s = .next t ∧ t.akey = s.keyin ∧
    (∀ i : Fin 16, t.sk[i].toNat = (s.keyin.toNat + i.val * s.cfg.ksStep.toNat) % 2 ^ 32) ∧
    t = { s with akey := t.akey, sk := t.sk, keyValid := true, errCode := .ok, done := true, pend := none }

/-- R110, R112: the schedule as sums modulo 2^32, its recurrence, and where the default step wraps. -/
def Obligations.KeyScheduleLaws : Prop :=
  (∀ (step key : Word) (i : Fin 16), (keySchedule step key)[i].toNat = (key.toNat + i.val * step.toNat) % 2 ^ 32) ∧
  (∀ step key : Word, (keySchedule step key)[0] = key) ∧
  (∀ (step key : Word) (i : Nat) (h : i < 15),
    (keySchedule step key)[i + 1] = (keySchedule step key)[i] + step) ∧
  (∀ i : Fin 16, i.val * 123456 ≤ 1851840) ∧
  (∀ (key : Word) (i : Fin 16),
    (keySchedule 123456#32 key)[i].toNat ≠ key.toNat + i.val * 123456 ↔ 2 ^ 32 ≤ key.toNat + i.val * 123456) ∧
  (∀ i : Fin 16, 1 ≤ i.val → 2 ^ 32 ≤ 0xFFFFFFFF + i.val * 123456) ∧
  (keySchedule 123456#32 0xFFFFFFFF#32)[1] = 0x0001E23F#32 ∧ (keySchedule 123456#32 0xFFFE1DC0#32)[1] = 0#32

/-- R120, R121: F(h, s) is the sum of h XOR s and h AND s modulo 2^32; it is h OR s, and the sum never carries out of
bit 31. -/
def Obligations.RoundFunctionIsOr : Prop :=
  ∀ h s : Word, (roundF h s).toNat = ((h ^^^ s).toNat + (h &&& s).toNat) % 2 ^ 32 ∧ roundF h s = h ||| s ∧
    (h ^^^ s).toNat + (h &&& s).toNat < 2 ^ 32

/-- R123: the further laws of F. -/
def Obligations.RoundFunctionLaws : Prop :=
  (∀ h s : Word, (roundF h s).toNat < 2 ^ 32) ∧
  (∀ h s : Word, roundF h s = roundF s h) ∧
  (∀ h : Word, roundF h 0#32 = h) ∧
  (∀ h : Word, roundF h h = h) ∧
  (∀ h : Word, roundF h 0xFFFFFFFF#32 = 0xFFFFFFFF#32) ∧
  (∀ h s : Word, roundF h s &&& ~~~s = h &&& ~~~s) ∧
  ∀ s : Word, s ≠ 0#32 → ∃ h h' : Word, h ≠ h' ∧ roundF h s = roundF h' s

/-- R120, R122: ROUNDF writes F of DIN0 and DIN1, a sum modulo 2^32, to DOUT0 and 0 to DOUT1; it needs no key. -/
def Obligations.RoundfCompletes : Prop :=
  encode .roundf = 0x00000002#32 ∧
  ∀ s : State, ∃ t, exec .roundf s = .next t ∧
    t.dout0.toNat = ((s.din0 ^^^ s.din1).toNat + (s.din0 &&& s.din1).toNat) % 2 ^ 32 ∧
    t = { s with dout0 := t.dout0, dout1 := 0#32, errCode := .ok, done := true, pend := none }

/-! ### The Feistel engine (42) -/

/-- R130, R131, R136: with a key, ENCB runs the 16 rounds from (L, R) = (DIN0, DIN1), SK[0] first, and outputs (R, L);
without one it raises NO_KEY and leaves DOUT. -/
def Obligations.EncbCompletes : Prop :=
  encode .encb = 0x00000003#32 ∧
  ∀ s : State,
    (s.keyValid = true → ∃ l r : Nat → Word, l 0 = s.din0 ∧ r 0 = s.din1 ∧
      (∀ i : Fin 16, l (i.val + 1) = r i.val ∧ r (i.val + 1) = l i.val ^^^ roundF (r i.val) s.sk[i]) ∧
      exec .encb s = .next { s with dout0 := r 16, dout1 := l 16, errCode := .ok, done := true, pend := none }) ∧
    (s.keyValid = false → exec .encb s = .next { s with errCode := .noKey, done := true, pend := none })

/-- R132, R133, R137: with a key, DECB binds DIN0 to R and DIN1 to L, runs the 16 rounds, SK[15] first, and outputs (L, R);
l i and r i are the halves after the round of SK[i]. Without a key it raises NO_KEY and leaves DOUT. -/
def Obligations.DecbCompletes : Prop :=
  encode .decb = 0x00000004#32 ∧
  ∀ s : State,
    (s.keyValid = true → ∃ l r : Nat → Word, r 16 = s.din0 ∧ l 16 = s.din1 ∧
      (∀ i : Fin 16, r i.val = l (i.val + 1) ∧ l i.val = r (i.val + 1) ^^^ roundF (l (i.val + 1)) s.sk[i]) ∧
      exec .decb s = .next { s with dout0 := l 0, dout1 := r 0, errCode := .ok, done := true, pend := none }) ∧
    (s.keyValid = false → exec .decb s = .next { s with errCode := .noKey, done := true, pend := none })

/-- R138: decryption inverts encryption for every subkey file, on halves and on 8-byte blocks; and the rounds invert
whatever function F is. -/
def Obligations.DecryptInvertsEncrypt : Prop :=
  (∀ (sk : Vector Word 16) (h : Word × Word), decryptHalves sk (encryptHalves sk h) = h) ∧
  (∀ (sk : Vector Word 16) (b : List Byte), b.length = 8 →
    ∃ c, encryptBlock sk b = .ok c ∧ c.length = 8 ∧ decryptBlock sk c = .ok b) ∧
  ∀ (f : Word → Word → Word) (sk : Fin 16 → Word) (l r l' r' : Nat → Word),
    (∀ i : Fin 16, l (i.val + 1) = r i.val ∧ r (i.val + 1) = l i.val ^^^ f (r i.val) (sk i)) →
    (∀ i : Fin 16, r' i.val = l' (i.val + 1) ∧ l' i.val = r' (i.val + 1) ^^^ f (l' (i.val + 1)) (sk i)) →
    r' 16 = r 16 → l' 16 = l 16 → l' 0 = l 0 ∧ r' 0 = r 0

/-- R135: the engine refuses a block that is not 8 bytes and takes every block that is; only ENCBUF and DECBUF, of a message
with a short last frame, raise INVALID_BLOCK_SIZE, so ENCB and DECB never do. -/
def Obligations.BlocksHaveEightBytes : Prop :=
  (∀ (sk : Vector Word 16) (b : List Byte), b.length ≠ 8 →
    encryptBlock sk b = .error .invalidBlockSize ∧ decryptBlock sk b = .error .invalidBlockSize) ∧
  (∀ (sk : Vector Word 16) (b : List Byte), b.length = 8 →
    (∃ c, encryptBlock sk b = .ok c) ∧ ∃ c, decryptBlock sk b = .ok c) ∧
  ∀ (s : State) (i : Instr), ∃ t, exec i s = .next t ∧
    (t.errCode = .invalidBlockSize → (i = .encbuf ∨ i = .decbuf) ∧ s.mlen % 8 ≠ 0)

/-- R140: no chaining. Equal blocks under equal subkeys give equal results, in whatever frames and states they stand, and
the same result as ENCB or DECB gives. -/
def Obligations.BlocksAreIndependent : Prop :=
  ∀ (s u : State) (f g : Nat), s.sk = u.sk → s.keyValid = true → u.keyValid = true →
    s.mlen % 8 = 0 → u.mlen % 8 = 0 → f < s.mlen / 8 → g < u.mlen / 8 → s.frameHalves f = u.frameHalves g →
    (∃ t v, exec .encbuf s = .next t ∧ exec .encbuf u = .next v ∧ t.frameHalves f = v.frameHalves g) ∧
    (∃ t v, exec .decbuf s = .next t ∧ exec .decbuf u = .next v ∧ t.frameHalves f = v.frameHalves g) ∧
    ∀ x : State, x.sk = s.sk → x.keyValid = true → (x.din0, x.din1) = s.frameHalves f →
      (∃ t y, exec .encbuf s = .next t ∧ exec .encb x = .next y ∧ (y.dout0, y.dout1) = t.frameHalves f) ∧
      ∃ t y, exec .decbuf s = .next t ∧ exec .decb x = .next y ∧ (y.dout0, y.dout1) = t.frameHalves f

/-! ### The padder (43) -/

/-- R151: PAD raises CAPACITY where MLEN = MBUF_BYTES; else it writes n = 8 - MLEN mod 8 bytes of the value n after the
message and adds n to MLEN. -/
def Obligations.PadCompletes : Prop :=
  encode .pad = 0x00000005#32 ∧
  ∀ s : State,
    (s.mlen = s.cfg.mbufBytes → exec .pad s = .next { s with errCode := .capacity, done := true, pend := none }) ∧
    (s.mlen ≠ s.cfg.mbufBytes → ∃ t, exec .pad s = .next t ∧ t.mlen = s.mlen + (8 - s.mlen % 8) ∧
      (∀ j, j < 8 - s.mlen % 8 → t.readByte (s.mlen + j) = BitVec.ofNat 8 (8 - s.mlen % 8)) ∧
      (∀ a, a < s.mlen ∨ s.mlen + (8 - s.mlen % 8) ≤ a → t.readByte a = s.readByte a) ∧
      t = { s with mbuf := t.mbuf, mlen := t.mlen, errCode := .ok, done := true, pend := none })

/-- R152: PAD succeeds exactly when MLEN < MBUF_BYTES, and then the padded message fits; so the longest message it can pad
has MBUF_BYTES - 1 bytes. -/
def Obligations.PadFitsBelowCapacity : Prop :=
  ∀ s : State, s.cfg.legal = true → s.mlen ≤ s.cfg.mbufBytes → ∃ t, exec .pad s = .next t ∧
    (t.errCode = .ok ↔ s.mlen < s.cfg.mbufBytes) ∧
    (t.errCode = .ok → s.mlen + (8 - s.mlen % 8) ≤ s.cfg.mbufBytes ∧ t.mlen ≤ s.cfg.mbufBytes)

/-- PAD computes Pad of R150 on the message. -/
def Obligations.PadComputesPad : Prop :=
  ∀ s : State, s.mlen ≠ s.cfg.mbufBytes → ∃ t, exec .pad s = .next t ∧ t.message = padMessage s.message

/-- R157: the padding laws for every byte sequence, and PAD followed by UNPAD in either mode. -/
def Obligations.PaddingLaws : Prop :=
  (∀ (m : List Byte) (k0 : UnpadK0),
    (padMessage m).length % 8 = 0 ∧ m.length < (padMessage m).length ∧
    1 ≤ (padMessage m).length - m.length ∧ (padMessage m).length - m.length ≤ 8 ∧
    (padMessage m).getLast? = some (BitVec.ofNat 8 ((padMessage m).length - m.length)) ∧
    unpadMessage k0 (padMessage m) = m ∧ strictValid (padMessage m) = true) ∧
  ∀ s : State, s.mlen < s.cfg.mbufBytes → ∃ t u, exec .pad s = .next t ∧ exec .unpad t = .next u ∧
    u.errCode = .ok ∧ u.mlen = s.mlen ∧ ∀ a, a < s.mlen → u.readByte a = s.readByte a

/-- R154, R155, R156: UNPAD on an empty message raises EMPTY_INPUT in either mode; in strict mode invalid padding raises
INVALID_PADDING; otherwise MLEN drops by min(k, MLEN) and nothing else changes. The rules are the KEEP case of UNPAD_K0. -/
def Obligations.UnpadCompletes : Prop :=
  encode .unpad = 0x00000006#32 ∧
  ∀ s : State, s.cfg.unpadK0 = .keep →
    (s.mlen = 0 → exec .unpad s = .next { s with errCode := .emptyInput, done := true, pend := none }) ∧
    (s.mlen ≠ 0 → ∀ k : Byte, k = s.readByte (s.mlen - 1) →
      (s.strictPad = true → ¬ (1 ≤ k.toNat ∧ k.toNat ≤ 8 ∧ k.toNat ≤ s.mlen ∧
          ∀ j, 1 ≤ j → j ≤ k.toNat → s.readByte (s.mlen - j) = k) →
        exec .unpad s = .next { s with errCode := .invalidPadding, done := true, pend := none }) ∧
      (s.strictPad = false ∨ (1 ≤ k.toNat ∧ k.toNat ≤ 8 ∧ k.toNat ≤ s.mlen ∧
          ∀ j, 1 ≤ j → j ≤ k.toNat → s.readByte (s.mlen - j) = k) →
        exec .unpad s =
          .next { s with mlen := s.mlen - min k.toNat s.mlen, errCode := .ok, done := true, pend := none }))

/-- UNPAD of a message that is not empty computes Unpad of R153 on it for either value of UNPAD_K0, and in strict mode
raises INVALID_PADDING exactly where the message fails R154. A last byte of 0 keeps the message where UNPAD_K0 is KEEP and
empties it where it is EMPTY (93 I3). -/
def Obligations.UnpadComputesUnpad : Prop :=
  ∀ s : State, s.mlen ≠ 0 → ∃ t, exec .unpad s = .next t ∧
    (s.strictPad = true ∧ strictValid s.message = false → t.errCode = .invalidPadding ∧ t.message = s.message) ∧
    (s.strictPad = false ∨ strictValid s.message = true →
      t.errCode = .ok ∧ t.message = unpadMessage s.cfg.unpadK0 s.message) ∧
    (s.strictPad = false → s.readByte (s.mlen - 1) = 0#8 →
      t.mlen = match s.cfg.unpadK0 with | .keep => s.mlen | .empty => 0)

/-! ### The block codec (44) -/

/-- R172: SPLIT raises TRUNCATED_INPUT in strict mode for a message that is no whole number of frames; else it reports the
number of frames and the length of the last in FRAMEINFO. -/
def Obligations.SplitReportsTheFrames : Prop :=
  encode .split = 0x00000007#32 ∧
  ∀ s : State,
    (s.strictSplit = true ∧ s.mlen % 8 ≠ 0 →
      exec .split s = .next { s with errCode := .truncatedInput, done := true, pend := none }) ∧
    (s.strictSplit = false ∨ s.mlen % 8 = 0 → ∀ ll : Nat,
      ll = (if (s.mlen + 7) / 8 = 0 then 0 else s.mlen - 8 * ((s.mlen + 7) / 8 - 1)) →
      ∃ t, exec .split s = .next t ∧
        t.frameinfo = (BitVec.ofNat 32 ll <<< 16) ||| BitVec.ofNat 32 ((s.mlen + 7) / 8) ∧
        (s.mlen ≤ 65536 → t.nframes = (s.mlen + 7) / 8 ∧ t.lastlen = ll) ∧
        t = { s with frameinfo := t.frameinfo, errCode := .ok, done := true, pend := none })

/-- R170, R171, R177: Split has (len + 7) div 8 chunks, chunk j is the bytes from 8j to min(8j + 8, len), every chunk but
the last has 8 bytes; Combine concatenates in order; and Combine of Split gives the sequence back. -/
def Obligations.SplitTilesTheMessage : Prop :=
  combineFrames [] = [] ∧
  (∀ (chunk : List Byte) (chunks : List (List Byte)),
    combineFrames (chunk :: chunks) = chunk ++ combineFrames chunks) ∧
  ∀ d : List Byte, (splitMessage d).length = (d.length + 7) / 8 ∧
    (∀ (j : Nat) (chunk : List Byte), (splitMessage d)[j]? = some chunk →
      chunk.length = min (8 * j + 8) d.length - 8 * j ∧
      (∀ k, k < chunk.length → chunk[k]? = d[8 * j + k]?) ∧
      (j + 1 < (splitMessage d).length → chunk.length = 8) ∧
      (j + 1 = (splitMessage d).length → chunk.length = d.length - 8 * ((d.length + 7) / 8 - 1))) ∧
    splitMessage [] = [] ∧ combineFrames (splitMessage d) = d

/-- R174, R178: ENCBUF encrypts every frame in place and reports the frames; its checks are NO_KEY, then for a message that
is no whole number of frames TRUNCATED_INPUT in strict mode and INVALID_BLOCK_SIZE otherwise, with nothing written. -/
def Obligations.EncbufCompletes : Prop :=
  encode .encbuf = 0x00000008#32 ∧
  ∀ s : State,
    (s.keyValid = false → exec .encbuf s = .next { s with errCode := .noKey, done := true, pend := none }) ∧
    (s.keyValid = true → s.mlen % 8 ≠ 0 → s.strictSplit = true →
      exec .encbuf s = .next { s with errCode := .truncatedInput, done := true, pend := none }) ∧
    (s.keyValid = true → s.mlen % 8 ≠ 0 → s.strictSplit = false →
      exec .encbuf s = .next { s with errCode := .invalidBlockSize, done := true, pend := none }) ∧
    (s.keyValid = true → s.mlen % 8 = 0 → ∃ t, exec .encbuf s = .next t ∧
      (∀ f, f < s.mlen / 8 → t.frameHalves f = encryptHalves s.sk (s.frameHalves f)) ∧
      (∀ a, s.mlen ≤ a → t.readByte a = s.readByte a) ∧
      t.frameinfo = (if s.mlen / 8 = 0 then 0#32 else (8#32 <<< 16) ||| BitVec.ofNat 32 (s.mlen / 8)) ∧
      t = { s with mbuf := t.mbuf, frameinfo := t.frameinfo, errCode := .ok, done := true, pend := none })

/-- R175: DECBUF decrypts every frame in place and reports the frames, with the checks of ENCBUF. -/
def Obligations.DecbufCompletes : Prop :=
  encode .decbuf = 0x00000009#32 ∧
  ∀ s : State,
    (s.keyValid = false → exec .decbuf s = .next { s with errCode := .noKey, done := true, pend := none }) ∧
    (s.keyValid = true → s.mlen % 8 ≠ 0 → s.strictSplit = true →
      exec .decbuf s = .next { s with errCode := .truncatedInput, done := true, pend := none }) ∧
    (s.keyValid = true → s.mlen % 8 ≠ 0 → s.strictSplit = false →
      exec .decbuf s = .next { s with errCode := .invalidBlockSize, done := true, pend := none }) ∧
    (s.keyValid = true → s.mlen % 8 = 0 → ∃ t, exec .decbuf s = .next t ∧
      (∀ f, f < s.mlen / 8 → t.frameHalves f = decryptHalves s.sk (s.frameHalves f)) ∧
      (∀ a, s.mlen ≤ a → t.readByte a = s.readByte a) ∧
      t.frameinfo = (if s.mlen / 8 = 0 then 0#32 else (8#32 <<< 16) ||| BitVec.ofNat 32 (s.mlen / 8)) ∧
      t = { s with mbuf := t.mbuf, frameinfo := t.frameinfo, errCode := .ok, done := true, pend := none })

/-- ENCBUF and DECBUF are Combine of the engine on each chunk of Split (R171, R173, R177), and PAD then ENCBUF is the
reference encryption: Combine of EncryptBlock on each chunk of Split of Pad, of length 8 * (len div 8 + 1) (R184, R187). -/
def Obligations.BufferCommandsRefineTheCipher : Prop :=
  ∀ s : State, s.keyValid = true →
    (s.mlen % 8 = 0 → ∃ t cs, exec .encbuf s = .next t ∧
      (splitMessage s.message).map (encryptBlock s.sk) = cs.map Except.ok ∧ t.message = combineFrames cs) ∧
    (s.mlen % 8 = 0 → ∃ t cs, exec .decbuf s = .next t ∧
      (splitMessage s.message).map (decryptBlock s.sk) = cs.map Except.ok ∧ t.message = combineFrames cs) ∧
    (s.mlen ≠ s.cfg.mbufBytes → ∃ t u cs, exec .pad s = .next t ∧ t.errCode = .ok ∧
      exec .encbuf t = .next u ∧ u.errCode = .ok ∧
      (splitMessage (padMessage s.message)).map (encryptBlock s.sk) = cs.map Except.ok ∧
      u.message = combineFrames cs ∧ u.mlen = 8 * (s.mlen / 8 + 1))

/-- DECBUF after ENCBUF gives every byte of MBUF back (R138, R174, R175). -/
def Obligations.DecbufUndoesEncbuf : Prop :=
  ∀ s : State, s.keyValid = true → s.mlen % 8 = 0 → ∃ t u, exec .encbuf s = .next t ∧ exec .decbuf t = .next u ∧
    u.errCode = .ok ∧ u.mlen = s.mlen ∧ ∀ a, u.readByte a = s.readByte a

/-- The message round trip (R186): PAD, ENCBUF, DECBUF, UNPAD all complete without error, in any strict modes, and give the
message back. -/
def Obligations.MessageRoundTrip : Prop :=
  ∀ s : State, s.keyValid = true → s.mlen < s.cfg.mbufBytes → ∃ t u v w,
    exec .pad s = .next t ∧ t.errCode = .ok ∧ exec .encbuf t = .next u ∧ u.errCode = .ok ∧
    exec .decbuf u = .next v ∧ v.errCode = .ok ∧ exec .unpad v = .next w ∧ w.errCode = .ok ∧
    w.message = s.message
end

