-- ==== Sys2Proof/Laws/State.lean ====
section
/-! SUPPORT. What each named update does to each field of State: one lemma per field and update. -/

namespace Sys2Proof.Machine

variable (s : State)

/-! ### A write of one MBUF byte -/

@[simp] theorem State.writeByte_ien (a : Nat) (b : Byte) : (s.writeByte a b).ien = s.ien := rfl
@[simp] theorem State.writeByte_strictPad (a : Nat) (b : Byte) : (s.writeByte a b).strictPad = s.strictPad := rfl
@[simp] theorem State.writeByte_strictSplit (a : Nat) (b : Byte) : (s.writeByte a b).strictSplit = s.strictSplit := rfl
@[simp] theorem State.writeByte_done (a : Nat) (b : Byte) : (s.writeByte a b).done = s.done := rfl
@[simp] theorem State.writeByte_keyValid (a : Nat) (b : Byte) : (s.writeByte a b).keyValid = s.keyValid := rfl
@[simp] theorem State.writeByte_werr (a : Nat) (b : Byte) : (s.writeByte a b).werr = s.werr := rfl
@[simp] theorem State.writeByte_errCode (a : Nat) (b : Byte) : (s.writeByte a b).errCode = s.errCode := rfl
@[simp] theorem State.writeByte_pend (a : Nat) (b : Byte) : (s.writeByte a b).pend = s.pend := rfl
@[simp] theorem State.writeByte_keyin (a : Nat) (b : Byte) : (s.writeByte a b).keyin = s.keyin := rfl
@[simp] theorem State.writeByte_akey (a : Nat) (b : Byte) : (s.writeByte a b).akey = s.akey := rfl
@[simp] theorem State.writeByte_sk (a : Nat) (b : Byte) : (s.writeByte a b).sk = s.sk := rfl
@[simp] theorem State.writeByte_din0 (a : Nat) (b : Byte) : (s.writeByte a b).din0 = s.din0 := rfl
@[simp] theorem State.writeByte_din1 (a : Nat) (b : Byte) : (s.writeByte a b).din1 = s.din1 := rfl
@[simp] theorem State.writeByte_dout0 (a : Nat) (b : Byte) : (s.writeByte a b).dout0 = s.dout0 := rfl
@[simp] theorem State.writeByte_dout1 (a : Nat) (b : Byte) : (s.writeByte a b).dout1 = s.dout1 := rfl
@[simp] theorem State.writeByte_mlen (a : Nat) (b : Byte) : (s.writeByte a b).mlen = s.mlen := rfl
@[simp] theorem State.writeByte_frameinfo (a : Nat) (b : Byte) : (s.writeByte a b).frameinfo = s.frameinfo := rfl
@[simp] theorem State.writeByte_mbuf (a : Nat) (b : Byte) : (s.writeByte a b).mbuf = Memory.set s.mbuf a b := rfl
@[simp] theorem State.writeByte_resets (a : Nat) (b : Byte) : (s.writeByte a b).resets = s.resets := rfl
@[simp] theorem State.writeByte_draws (a : Nat) (b : Byte) : (s.writeByte a b).draws = s.draws := rfl
@[simp] theorem State.writeByte_inputs (a : Nat) (b : Byte) : (s.writeByte a b).inputs = s.inputs := rfl
@[simp] theorem State.writeByte_replies (a : Nat) (b : Byte) : (s.writeByte a b).replies = s.replies := rfl
@[simp] theorem State.writeByte_cfg (a : Nat) (b : Byte) : (s.writeByte a b).cfg = s.cfg := rfl

/-! ### The STATUS update of a completion (R193) -/

@[simp] theorem State.finish_ien (c : ErrCode) : (s.finish c).ien = s.ien := rfl
@[simp] theorem State.finish_strictPad (c : ErrCode) : (s.finish c).strictPad = s.strictPad := rfl
@[simp] theorem State.finish_strictSplit (c : ErrCode) : (s.finish c).strictSplit = s.strictSplit := rfl
@[simp] theorem State.finish_done (c : ErrCode) : (s.finish c).done = true := rfl
@[simp] theorem State.finish_keyValid (c : ErrCode) : (s.finish c).keyValid = s.keyValid := rfl
@[simp] theorem State.finish_werr (c : ErrCode) : (s.finish c).werr = s.werr := rfl
@[simp] theorem State.finish_errCode (c : ErrCode) : (s.finish c).errCode = c := rfl
@[simp] theorem State.finish_pend (c : ErrCode) : (s.finish c).pend = none := rfl
@[simp] theorem State.finish_keyin (c : ErrCode) : (s.finish c).keyin = s.keyin := rfl
@[simp] theorem State.finish_akey (c : ErrCode) : (s.finish c).akey = s.akey := rfl
@[simp] theorem State.finish_sk (c : ErrCode) : (s.finish c).sk = s.sk := rfl
@[simp] theorem State.finish_din0 (c : ErrCode) : (s.finish c).din0 = s.din0 := rfl
@[simp] theorem State.finish_din1 (c : ErrCode) : (s.finish c).din1 = s.din1 := rfl
@[simp] theorem State.finish_dout0 (c : ErrCode) : (s.finish c).dout0 = s.dout0 := rfl
@[simp] theorem State.finish_dout1 (c : ErrCode) : (s.finish c).dout1 = s.dout1 := rfl
@[simp] theorem State.finish_mlen (c : ErrCode) : (s.finish c).mlen = s.mlen := rfl
@[simp] theorem State.finish_frameinfo (c : ErrCode) : (s.finish c).frameinfo = s.frameinfo := rfl
@[simp] theorem State.finish_mbuf (c : ErrCode) : (s.finish c).mbuf = s.mbuf := rfl
@[simp] theorem State.finish_resets (c : ErrCode) : (s.finish c).resets = s.resets := rfl
@[simp] theorem State.finish_draws (c : ErrCode) : (s.finish c).draws = s.draws := rfl
@[simp] theorem State.finish_inputs (c : ErrCode) : (s.finish c).inputs = s.inputs := rfl
@[simp] theorem State.finish_replies (c : ErrCode) : (s.finish c).replies = s.replies := rfl
@[simp] theorem State.finish_cfg (c : ErrCode) : (s.finish c).cfg = s.cfg := rfl

/-! ### A write to STATUS (R25) -/

@[simp] theorem State.acknowledge_ien (w : Word) : (s.acknowledge w).ien = s.ien := rfl
@[simp] theorem State.acknowledge_strictPad (w : Word) : (s.acknowledge w).strictPad = s.strictPad := rfl
@[simp] theorem State.acknowledge_strictSplit (w : Word) : (s.acknowledge w).strictSplit = s.strictSplit := rfl
@[simp] theorem State.acknowledge_done (w : Word) : (s.acknowledge w).done = (s.done && !w.getLsbD 1) := rfl
@[simp] theorem State.acknowledge_keyValid (w : Word) : (s.acknowledge w).keyValid = s.keyValid := rfl
@[simp] theorem State.acknowledge_werr (w : Word) : (s.acknowledge w).werr = (s.werr && !w.getLsbD 3) := rfl
@[simp] theorem State.acknowledge_errCode (w : Word) : (s.acknowledge w).errCode = s.errCode := rfl
@[simp] theorem State.acknowledge_pend (w : Word) : (s.acknowledge w).pend = s.pend := rfl
@[simp] theorem State.acknowledge_keyin (w : Word) : (s.acknowledge w).keyin = s.keyin := rfl
@[simp] theorem State.acknowledge_akey (w : Word) : (s.acknowledge w).akey = s.akey := rfl
@[simp] theorem State.acknowledge_sk (w : Word) : (s.acknowledge w).sk = s.sk := rfl
@[simp] theorem State.acknowledge_din0 (w : Word) : (s.acknowledge w).din0 = s.din0 := rfl
@[simp] theorem State.acknowledge_din1 (w : Word) : (s.acknowledge w).din1 = s.din1 := rfl
@[simp] theorem State.acknowledge_dout0 (w : Word) : (s.acknowledge w).dout0 = s.dout0 := rfl
@[simp] theorem State.acknowledge_dout1 (w : Word) : (s.acknowledge w).dout1 = s.dout1 := rfl
@[simp] theorem State.acknowledge_mlen (w : Word) : (s.acknowledge w).mlen = s.mlen := rfl
@[simp] theorem State.acknowledge_frameinfo (w : Word) : (s.acknowledge w).frameinfo = s.frameinfo := rfl
@[simp] theorem State.acknowledge_mbuf (w : Word) : (s.acknowledge w).mbuf = s.mbuf := rfl
@[simp] theorem State.acknowledge_resets (w : Word) : (s.acknowledge w).resets = s.resets := rfl
@[simp] theorem State.acknowledge_draws (w : Word) : (s.acknowledge w).draws = s.draws := rfl
@[simp] theorem State.acknowledge_inputs (w : Word) : (s.acknowledge w).inputs = s.inputs := rfl
@[simp] theorem State.acknowledge_replies (w : Word) : (s.acknowledge w).replies = s.replies := rfl
@[simp] theorem State.acknowledge_cfg (w : Word) : (s.acknowledge w).cfg = s.cfg := rfl

/-! ### A dropped write (R26) -/

@[simp] theorem State.dropWrite_ien : (s.dropWrite).ien = s.ien := rfl
@[simp] theorem State.dropWrite_strictPad : (s.dropWrite).strictPad = s.strictPad := rfl
@[simp] theorem State.dropWrite_strictSplit : (s.dropWrite).strictSplit = s.strictSplit := rfl
@[simp] theorem State.dropWrite_done : (s.dropWrite).done = s.done := rfl
@[simp] theorem State.dropWrite_keyValid : (s.dropWrite).keyValid = s.keyValid := rfl
@[simp] theorem State.dropWrite_werr : (s.dropWrite).werr = true := rfl
@[simp] theorem State.dropWrite_errCode : (s.dropWrite).errCode = s.errCode := rfl
@[simp] theorem State.dropWrite_pend : (s.dropWrite).pend = s.pend := rfl
@[simp] theorem State.dropWrite_keyin : (s.dropWrite).keyin = s.keyin := rfl
@[simp] theorem State.dropWrite_akey : (s.dropWrite).akey = s.akey := rfl
@[simp] theorem State.dropWrite_sk : (s.dropWrite).sk = s.sk := rfl
@[simp] theorem State.dropWrite_din0 : (s.dropWrite).din0 = s.din0 := rfl
@[simp] theorem State.dropWrite_din1 : (s.dropWrite).din1 = s.din1 := rfl
@[simp] theorem State.dropWrite_dout0 : (s.dropWrite).dout0 = s.dout0 := rfl
@[simp] theorem State.dropWrite_dout1 : (s.dropWrite).dout1 = s.dout1 := rfl
@[simp] theorem State.dropWrite_mlen : (s.dropWrite).mlen = s.mlen := rfl
@[simp] theorem State.dropWrite_frameinfo : (s.dropWrite).frameinfo = s.frameinfo := rfl
@[simp] theorem State.dropWrite_mbuf : (s.dropWrite).mbuf = s.mbuf := rfl
@[simp] theorem State.dropWrite_resets : (s.dropWrite).resets = s.resets := rfl
@[simp] theorem State.dropWrite_draws : (s.dropWrite).draws = s.draws := rfl
@[simp] theorem State.dropWrite_inputs : (s.dropWrite).inputs = s.inputs := rfl
@[simp] theorem State.dropWrite_replies : (s.dropWrite).replies = s.replies := rfl
@[simp] theorem State.dropWrite_cfg : (s.dropWrite).cfg = s.cfg := rfl

/-! ### Command issue (R190) -/

@[simp] theorem State.issue_ien (w : Word) : (s.issue w).ien = s.ien := rfl
@[simp] theorem State.issue_strictPad (w : Word) : (s.issue w).strictPad = s.strictPad := rfl
@[simp] theorem State.issue_strictSplit (w : Word) : (s.issue w).strictSplit = s.strictSplit := rfl
@[simp] theorem State.issue_done (w : Word) : (s.issue w).done = s.done := rfl
@[simp] theorem State.issue_keyValid (w : Word) : (s.issue w).keyValid = s.keyValid := rfl
@[simp] theorem State.issue_werr (w : Word) : (s.issue w).werr = s.werr := rfl
@[simp] theorem State.issue_errCode (w : Word) : (s.issue w).errCode = s.errCode := rfl
@[simp] theorem State.issue_pend (w : Word) : (s.issue w).pend = some w := rfl
@[simp] theorem State.issue_keyin (w : Word) : (s.issue w).keyin = s.keyin := rfl
@[simp] theorem State.issue_akey (w : Word) : (s.issue w).akey = s.akey := rfl
@[simp] theorem State.issue_sk (w : Word) : (s.issue w).sk = s.sk := rfl
@[simp] theorem State.issue_din0 (w : Word) : (s.issue w).din0 = s.din0 := rfl
@[simp] theorem State.issue_din1 (w : Word) : (s.issue w).din1 = s.din1 := rfl
@[simp] theorem State.issue_dout0 (w : Word) : (s.issue w).dout0 = s.dout0 := rfl
@[simp] theorem State.issue_dout1 (w : Word) : (s.issue w).dout1 = s.dout1 := rfl
@[simp] theorem State.issue_mlen (w : Word) : (s.issue w).mlen = s.mlen := rfl
@[simp] theorem State.issue_frameinfo (w : Word) : (s.issue w).frameinfo = s.frameinfo := rfl
@[simp] theorem State.issue_mbuf (w : Word) : (s.issue w).mbuf = s.mbuf := rfl
@[simp] theorem State.issue_resets (w : Word) : (s.issue w).resets = s.resets := rfl
@[simp] theorem State.issue_draws (w : Word) : (s.issue w).draws = s.draws := rfl
@[simp] theorem State.issue_inputs (w : Word) : (s.issue w).inputs = s.inputs := rfl
@[simp] theorem State.issue_replies (w : Word) : (s.issue w).replies = s.replies := rfl
@[simp] theorem State.issue_cfg (w : Word) : (s.issue w).cfg = s.cfg := rfl

/-! ### An accepted write to CTRL (R24) -/

@[simp] theorem State.setCtrl_ien (w : Word) : (s.setCtrl w).ien = w.getLsbD 0 := rfl
@[simp] theorem State.setCtrl_strictPad (w : Word) : (s.setCtrl w).strictPad = w.getLsbD 1 := rfl
@[simp] theorem State.setCtrl_strictSplit (w : Word) : (s.setCtrl w).strictSplit = w.getLsbD 2 := rfl
@[simp] theorem State.setCtrl_done (w : Word) : (s.setCtrl w).done = s.done := rfl
@[simp] theorem State.setCtrl_keyValid (w : Word) : (s.setCtrl w).keyValid = s.keyValid := rfl
@[simp] theorem State.setCtrl_werr (w : Word) : (s.setCtrl w).werr = s.werr := rfl
@[simp] theorem State.setCtrl_errCode (w : Word) : (s.setCtrl w).errCode = s.errCode := rfl
@[simp] theorem State.setCtrl_pend (w : Word) : (s.setCtrl w).pend = s.pend := rfl
@[simp] theorem State.setCtrl_keyin (w : Word) : (s.setCtrl w).keyin = s.keyin := rfl
@[simp] theorem State.setCtrl_akey (w : Word) : (s.setCtrl w).akey = s.akey := rfl
@[simp] theorem State.setCtrl_sk (w : Word) : (s.setCtrl w).sk = s.sk := rfl
@[simp] theorem State.setCtrl_din0 (w : Word) : (s.setCtrl w).din0 = s.din0 := rfl
@[simp] theorem State.setCtrl_din1 (w : Word) : (s.setCtrl w).din1 = s.din1 := rfl
@[simp] theorem State.setCtrl_dout0 (w : Word) : (s.setCtrl w).dout0 = s.dout0 := rfl
@[simp] theorem State.setCtrl_dout1 (w : Word) : (s.setCtrl w).dout1 = s.dout1 := rfl
@[simp] theorem State.setCtrl_mlen (w : Word) : (s.setCtrl w).mlen = s.mlen := rfl
@[simp] theorem State.setCtrl_frameinfo (w : Word) : (s.setCtrl w).frameinfo = s.frameinfo := rfl
@[simp] theorem State.setCtrl_mbuf (w : Word) : (s.setCtrl w).mbuf = s.mbuf := rfl
@[simp] theorem State.setCtrl_resets (w : Word) : (s.setCtrl w).resets = s.resets := rfl
@[simp] theorem State.setCtrl_draws (w : Word) : (s.setCtrl w).draws = s.draws := rfl
@[simp] theorem State.setCtrl_inputs (w : Word) : (s.setCtrl w).inputs = s.inputs := rfl
@[simp] theorem State.setCtrl_replies (w : Word) : (s.setCtrl w).replies = s.replies := rfl
@[simp] theorem State.setCtrl_cfg (w : Word) : (s.setCtrl w).cfg = s.cfg := rfl

/-! ### A bus response (R60) -/

@[simp] theorem State.answer_ien (r : Reply) : (s.answer r).ien = s.ien := rfl
@[simp] theorem State.answer_strictPad (r : Reply) : (s.answer r).strictPad = s.strictPad := rfl
@[simp] theorem State.answer_strictSplit (r : Reply) : (s.answer r).strictSplit = s.strictSplit := rfl
@[simp] theorem State.answer_done (r : Reply) : (s.answer r).done = s.done := rfl
@[simp] theorem State.answer_keyValid (r : Reply) : (s.answer r).keyValid = s.keyValid := rfl
@[simp] theorem State.answer_werr (r : Reply) : (s.answer r).werr = s.werr := rfl
@[simp] theorem State.answer_errCode (r : Reply) : (s.answer r).errCode = s.errCode := rfl
@[simp] theorem State.answer_pend (r : Reply) : (s.answer r).pend = s.pend := rfl
@[simp] theorem State.answer_keyin (r : Reply) : (s.answer r).keyin = s.keyin := rfl
@[simp] theorem State.answer_akey (r : Reply) : (s.answer r).akey = s.akey := rfl
@[simp] theorem State.answer_sk (r : Reply) : (s.answer r).sk = s.sk := rfl
@[simp] theorem State.answer_din0 (r : Reply) : (s.answer r).din0 = s.din0 := rfl
@[simp] theorem State.answer_din1 (r : Reply) : (s.answer r).din1 = s.din1 := rfl
@[simp] theorem State.answer_dout0 (r : Reply) : (s.answer r).dout0 = s.dout0 := rfl
@[simp] theorem State.answer_dout1 (r : Reply) : (s.answer r).dout1 = s.dout1 := rfl
@[simp] theorem State.answer_mlen (r : Reply) : (s.answer r).mlen = s.mlen := rfl
@[simp] theorem State.answer_frameinfo (r : Reply) : (s.answer r).frameinfo = s.frameinfo := rfl
@[simp] theorem State.answer_mbuf (r : Reply) : (s.answer r).mbuf = s.mbuf := rfl
@[simp] theorem State.answer_resets (r : Reply) : (s.answer r).resets = s.resets := rfl
@[simp] theorem State.answer_draws (r : Reply) : (s.answer r).draws = s.draws := rfl
@[simp] theorem State.answer_inputs (r : Reply) : (s.answer r).inputs = s.inputs := rfl
@[simp] theorem State.answer_replies (r : Reply) : (s.answer r).replies = r :: s.replies := rfl
@[simp] theorem State.answer_cfg (r : Reply) : (s.answer r).cfg = s.cfg := rfl

/-! ### A reset (R231) -/

@[simp] theorem State.resetEvent_ien : (s.resetEvent).ien = false := rfl
@[simp] theorem State.resetEvent_strictPad : (s.resetEvent).strictPad = false := rfl
@[simp] theorem State.resetEvent_strictSplit : (s.resetEvent).strictSplit = false := rfl
@[simp] theorem State.resetEvent_done : (s.resetEvent).done = false := rfl
@[simp] theorem State.resetEvent_keyValid : (s.resetEvent).keyValid = false := rfl
@[simp] theorem State.resetEvent_werr : (s.resetEvent).werr = false := rfl
@[simp] theorem State.resetEvent_errCode : (s.resetEvent).errCode = .ok := rfl
@[simp] theorem State.resetEvent_pend : (s.resetEvent).pend = none := rfl
@[simp] theorem State.resetEvent_keyin : (s.resetEvent).keyin = 0#32 := rfl
@[simp] theorem State.resetEvent_akey : (s.resetEvent).akey = 0#32 := rfl
@[simp] theorem State.resetEvent_sk : (s.resetEvent).sk = Vector.replicate 16 0#32 := rfl
@[simp] theorem State.resetEvent_din0 : (s.resetEvent).din0 = 0#32 := rfl
@[simp] theorem State.resetEvent_din1 : (s.resetEvent).din1 = 0#32 := rfl
@[simp] theorem State.resetEvent_dout0 : (s.resetEvent).dout0 = 0#32 := rfl
@[simp] theorem State.resetEvent_dout1 : (s.resetEvent).dout1 = 0#32 := rfl
@[simp] theorem State.resetEvent_mlen : (s.resetEvent).mlen = 0 := rfl
@[simp] theorem State.resetEvent_frameinfo : (s.resetEvent).frameinfo = 0#32 := rfl
@[simp] theorem State.resetEvent_mbuf : (s.resetEvent).mbuf = [] := rfl
@[simp] theorem State.resetEvent_resets : (s.resetEvent).resets = s.resets + 1 := rfl
@[simp] theorem State.resetEvent_draws : (s.resetEvent).draws = s.draws := rfl
@[simp] theorem State.resetEvent_inputs : (s.resetEvent).inputs = s.inputs := rfl
@[simp] theorem State.resetEvent_replies : (s.resetEvent).replies = s.replies := rfl
@[simp] theorem State.resetEvent_cfg : (s.resetEvent).cfg = s.cfg := rfl

end Sys2Proof.Machine
end

