-- ==== Sys2Proof/Laws/Ops.lean ====
section
/-! SUPPORT. One lemma for each shared operation: everything it can do. -/

namespace Sys2Proof.Machine

variable {s t : State}

/-! ### BUSY (R44) -/

theorem State.busy_eq_true : s.busy = true ↔ ∃ w, s.pend = some w := by simp [State.busy, Option.isSome_iff_exists]

theorem State.busy_eq_false : s.busy = false ↔ s.pend = none := by simp [State.busy]

/-! ### Completion (R192, R213) -/

@[simp] theorem State.complete_ok (s t : State) : s.complete (.ok t) = t.finish .ok := rfl

@[simp] theorem State.complete_error (s : State) (c : ErrCode) : s.complete (.error c) = s.finish c := rfl

@[simp] theorem State.completed_ok (s t : State) : s.completed (.ok t) = .next (t.finish .ok) := rfl

@[simp] theorem State.completed_error (s : State) (c : ErrCode) : s.completed (.error c) = .next (s.finish c) := rfl

/-- A completion applies the command's state or discards it. -/
theorem State.completed_cases {r : Except ErrCode State} (h : s.completed r = .next t) :
    (∃ u, r = .ok u ∧ t = u.finish .ok) ∨ ∃ c, r = .error c ∧ t = s.finish c := by
  cases r with
  | ok u => exact .inl ⟨u, rfl, by simpa using h.symm⟩
  | error c => exact .inr ⟨c, rfl, by simpa using h.symm⟩

/-- ENCB and DECB (R136, R137). -/
theorem State.transformDin_cases (s : State) (g : Word × Word → Word × Word) :
    (s.keyValid = true ∧
        s.transformDin g = .ok { s with dout0 := (g (s.din0, s.din1)).1, dout1 := (g (s.din0, s.din1)).2 }) ∨
      (s.keyValid = false ∧ s.transformDin g = .error .noKey) := by
  unfold State.transformDin
  cases s.keyValid <;> simp

/-- The checks of ENCBUF and DECBUF pass exactly with a key and whole frames (R211). -/
theorem State.bufferError_eq_none : s.bufferError = none ↔ s.keyValid = true ∧ s.mlen % 8 = 0 := by
  unfold State.bufferError
  split <;> simp_all

/-- ENCBUF and DECBUF (R174, R175). -/
theorem State.transformBuffer_cases (s : State) (g : Word × Word → Word × Word) :
    (s.keyValid = true ∧ s.mlen % 8 = 0 ∧
        s.transformBuffer g = .ok { s with
          mbuf := Memory.mapFrames s.resets g 0 (s.mlen / 8) s.mbuf
          frameinfo := if s.mlen / 8 = 0 then 0#32 else frameWord (s.mlen / 8) 8 }) ∨
      ∃ c, s.bufferError = some c ∧ s.transformBuffer g = .error c := by
  unfold State.transformBuffer
  split
  · rename_i c h
    exact .inr ⟨c, h, rfl⟩
  · rename_i h
    exact .inl ⟨(State.bufferError_eq_none.1 h).1, (State.bufferError_eq_none.1 h).2, rfl⟩

/-- What a completed command can do to the state: one of the ten effects, or only the STATUS update (R9, R192). -/
theorem exec_cases {i : Instr} (h : exec i s = .next t) :
    (∃ c, t = s.finish c) ∨
    (i = .loadkey ∧
      t = { s with akey := s.keyin, sk := keySchedule s.cfg.ksStep s.keyin, keyValid := true }.finish .ok) ∨
    ((i = .roundf ∨ i = .encb ∨ i = .decb) ∧ ∃ d0 d1, t = { s with dout0 := d0, dout1 := d1 }.finish .ok) ∨
    (i = .pad ∧ s.mlen ≠ s.cfg.mbufBytes ∧
      t = { s with mbuf := Memory.setMany s.mbuf s.mlen (padBytes s.mlen), mlen := s.mlen + padCount s.mlen }.finish .ok) ∨
    (i = .unpad ∧ ∃ k, t = { s with mlen := s.mlen - k }.finish .ok) ∨
    (i = .split ∧ t = { s with frameinfo := frameWord (frameCount s.mlen) (lastLength s.mlen) }.finish .ok) ∨
    ((i = .encbuf ∨ i = .decbuf) ∧ s.mlen % 8 = 0 ∧ ∃ g,
      t = { s with
        mbuf := Memory.mapFrames s.resets g 0 (s.mlen / 8) s.mbuf
        frameinfo := if s.mlen / 8 = 0 then 0#32 else frameWord (s.mlen / 8) 8 }.finish .ok) := by
  cases i with
  | nop => exact .inl ⟨.ok, by simpa [exec, execNop] using h.symm⟩
  | loadkey => exact .inr (.inl ⟨rfl, by simpa [exec, execLoadkey] using h.symm⟩)
  | roundf => exact .inr (.inr (.inl ⟨.inl rfl, _, _, by simpa [exec, execRoundf] using h.symm⟩))
  | encb =>
    rcases State.transformDin_cases s (encryptHalves s.sk) with ⟨-, e⟩ | ⟨-, e⟩ <;>
      simp only [exec, execEncb, e, State.completed_ok, State.completed_error, Host.Outcome.next.injEq] at h
    · exact .inr (.inr (.inl ⟨.inr (.inl rfl), _, _, h.symm⟩))
    · exact .inl ⟨_, h.symm⟩
  | decb =>
    rcases State.transformDin_cases s (decryptHalves s.sk) with ⟨-, e⟩ | ⟨-, e⟩ <;>
      simp only [exec, execDecb, e, State.completed_ok, State.completed_error, Host.Outcome.next.injEq] at h
    · exact .inr (.inr (.inl ⟨.inr (.inr rfl), _, _, h.symm⟩))
    · exact .inl ⟨_, h.symm⟩
  | pad =>
    simp only [exec, execPad] at h
    split at h
    · exact .inl ⟨_, by simpa using h.symm⟩
    · exact .inr (.inr (.inr (.inl ⟨rfl, ‹_›, by simpa using h.symm⟩)))
  | unpad =>
    simp only [exec, execUnpad] at h
    split at h
    · exact .inl ⟨_, by simpa using h.symm⟩
    · split at h
      · exact .inl ⟨_, by simpa using h.symm⟩
      · exact .inr (.inr (.inr (.inr (.inl ⟨rfl, _, by simpa using h.symm⟩))))
  | split =>
    simp only [exec, execSplit] at h
    split at h
    · exact .inl ⟨_, by simpa using h.symm⟩
    · exact .inr (.inr (.inr (.inr (.inr (.inl ⟨rfl, by simpa using h.symm⟩)))))
  | encbuf =>
    rcases State.transformBuffer_cases s (encryptHalves s.sk) with ⟨-, hm, e⟩ | ⟨c, -, e⟩ <;>
      simp only [exec, execEncbuf, e, State.completed_ok, State.completed_error, Host.Outcome.next.injEq] at h
    · exact .inr (.inr (.inr (.inr (.inr (.inr ⟨.inl rfl, hm, _, h.symm⟩)))))
    · exact .inl ⟨_, h.symm⟩
  | decbuf =>
    rcases State.transformBuffer_cases s (decryptHalves s.sk) with ⟨-, hm, e⟩ | ⟨c, -, e⟩ <;>
      simp only [exec, execDecbuf, e, State.completed_ok, State.completed_error, Host.Outcome.next.injEq] at h
    · exact .inr (.inr (.inr (.inr (.inr (.inr ⟨.inr rfl, hm, _, h.symm⟩)))))
    · exact .inl ⟨_, h.symm⟩

/-! ### The engine's turn (R192, R195) -/

/-- The engine is idle, runs the decoded command, or completes with BAD_COMMAND. -/
theorem State.engineTurn_cases {o : Host.Outcome State Fault Refusal} (h : s.engineTurn = o) :
    (s.pend = none ∧ o = .next s) ∨
    (∃ w i, s.pend = some w ∧ decode w = .ok i ∧ o = exec i s) ∨
    ∃ w e, s.pend = some w ∧ decode w = .error e ∧ o = .next (s.finish .badCommand) := by
  subst h
  unfold State.engineTurn
  split
  · exact .inl ⟨‹_›, rfl⟩
  · split
    · exact .inr (.inl ⟨_, _, ‹_›, ‹_›, rfl⟩)
    · exact .inr (.inr ⟨_, _, ‹_›, ‹_›, rfl⟩)

/-! ### The register map (R20, R62, R63) -/

/-- A register is found at its own offset. -/
@[simp] theorem regAt_offset (r : Reg) : regAt r.offset = some r := by
  cases r with
  | sk i => revert i; decide
  | _ => decide

/-- A register found at an offset has that offset. -/
theorem offset_of_regAt {off : Nat} {r : Reg} (h : regAt off = some r) : off = r.offset := by
  have := List.find?_some (p := fun r : Reg => r.offset == off) h
  exact (eq_of_beq this).symm

theorem Reg.offset_lt (r : Reg) : r.offset < 0x80 := by
  cases r with
  | sk i => simp only [Reg.offset]; omega
  | _ => decide

theorem Reg.offset_mod (r : Reg) : r.offset % 4 = 0 := by
  cases r with
  | sk i => simp only [Reg.offset]; omega
  | _ => decide

/-- A 4-byte access at a register's offset addresses that register. -/
@[simp] theorem placeAt_offset (c : Config) (r : Reg) : placeAt c r.offset .word = some (.reg r) := by
  have := r.offset_lt
  simp [placeAt, mbufOffset, show r.offset < 0x1000 by omega]

/-- The three forms of a legal access. -/
theorem placeAt_cases {c : Config} {off : Nat} {size : Width} {p : Place} (h : placeAt c off size = some p) :
    (∃ r, p = .reg r ∧ off = r.offset ∧ size = .word) ∨
    (∃ a, p = .mbufByte a ∧ off = mbufOffset + a ∧ a < c.mbufBytes ∧ size = .byte) ∨
    ∃ a, p = .mbufWord a ∧ off = mbufOffset + a ∧ a < c.mbufBytes ∧ a % 4 = 0 ∧ size = .word := by
  unfold placeAt at h
  split at h
  · cases size <;> dsimp only at h
    · cases h
    · cases h
    · obtain ⟨r, hr, rfl⟩ := Option.map_eq_some_iff.1 h
      exact .inl ⟨r, rfl, offset_of_regAt hr, rfl⟩
  · split at h
    · cases size <;> dsimp only at h
      · cases h
        exact .inr (.inl ⟨_, rfl, by omega, by omega, rfl⟩)
      · cases h
      · split at h
        · cases h
          exact .inr (.inr ⟨_, rfl, by omega, by omega, ‹_›, rfl⟩)
        · cases h
    · cases h

/-- A byte access inside MBUF. -/
@[simp] theorem placeAt_mbufByte {c : Config} {a : Nat} (h : a < c.mbufBytes) :
    placeAt c (mbufOffset + a) .byte = some (.mbufByte a) := by
  simp [placeAt, h]

/-- An aligned word access inside MBUF. -/
@[simp] theorem placeAt_mbufWord {c : Config} {a : Nat} (h : a < c.mbufBytes) (h4 : a % 4 = 0) :
    placeAt c (mbufOffset + a) .word = some (.mbufWord a) := by
  simp [placeAt, h, h4]

/-- An address inside the window reaches the FCC at its offset (R61). -/
@[simp] theorem Config.offsetOf_base {c : Config} {off : Nat} (h : off < Config.windowBytes) :
    Config.offsetOf c (c.base + off) = some off := by
  simp [Config.offsetOf, h]

/-! ### Bus transactions (R26, R45, R68, R70) -/

/-- A read answers, and draws a free value where it is volatile; it changes nothing else. -/
theorem State.busRead_cases (s : State) (off : Nat) (size : Width) :
    (placeAt s.cfg off size = none ∧ s.busRead off size = s.answer (.read .error 0#32)) ∨
    (∃ p, placeAt s.cfg off size = some p ∧ s.busy = true ∧ p.volatile = true ∧
      s.busRead off size = { s with draws := s.draws + 1 }.answer (.read .ok (volatileValue s.draws p))) ∨
    ∃ p, placeAt s.cfg off size = some p ∧ (s.busy = false ∨ p.volatile = false) ∧
      s.busRead off size = s.answer (.read .ok (s.readPlace p)) := by
  unfold State.busRead
  split
  · exact .inl ⟨‹_›, rfl⟩
  · rename_i p hp
    split
    · rename_i h
      simp only [Bool.and_eq_true] at h
      exact .inr (.inl ⟨p, hp, h.1, h.2, rfl⟩)
    · rename_i h
      simp only [Bool.and_eq_true, not_and, Bool.not_eq_true] at h
      refine .inr (.inr ⟨p, hp, ?_, rfl⟩)
      cases hb : s.busy
      · exact .inl rfl
      · exact .inr (h hb)

/-- What a write can do: nothing (a bus error), a dropped write, a reset, an issue, W1C, or one plain update while
BUSY = 0 (R24 to R30, R64, R65). -/
theorem State.busWrite_cases (s : State) (off : Nat) (size : Width) (wdata : Word) :
    s.busWrite off size wdata = s.answer (.write .error) ∨
    ∃ u, s.busWrite off size wdata = u.answer (.write .ok) ∧
      (u = s.dropWrite ∨
       (off = Reg.ctrl.offset ∧ wdata.getLsbD 31 = true ∧ u = s.resetEvent) ∨
       (off = Reg.status.offset ∧ u = s.acknowledge wdata) ∨
       (s.busy = false ∧
         (u = s.setCtrl wdata ∨ u = s.issue wdata ∨ u = { s with keyin := wdata } ∨ u = { s with din0 := wdata } ∨
          u = { s with din1 := wdata } ∨
          (off = Reg.mlen.offset ∧ wdata.toNat ≤ s.cfg.mbufBytes ∧ u = { s with mlen := wdata.toNat }) ∨
          (∃ a, a < s.cfg.mbufBytes ∧ u = s.writeByte a (wdata.extractLsb' 0 8)) ∨
          ∃ a, a < s.cfg.mbufBytes ∧ a % 4 = 0 ∧ u = { s with mbuf := Memory.setWord s.mbuf a wdata }))) := by
  unfold State.busWrite
  split
  · exact .inl rfl
  · rename_i r hp
    split
    · exact .inl rfl
    · rename_i hro
      refine .inr ⟨_, rfl, ?_⟩
      have hoff : off = r.offset := by
        rcases placeAt_cases hp with ⟨r', h, h', -⟩ | ⟨a, h, -⟩ | ⟨a, h, -⟩
        · cases h; exact h'
        · cases h
        · cases h
      cases hb : s.busy <;> cases r <;>
        simp_all [State.writeReg, State.unlessBusy, Reg.readOnly]
      · split <;> simp_all
      · split <;> simp_all
      · split <;> simp_all
  · rename_i a hp
    refine .inr ⟨_, rfl, ?_⟩
    rcases placeAt_cases hp with ⟨r', h, -⟩ | ⟨a', h, -, ha, -⟩ | ⟨a', h, -⟩ <;> cases h
    cases hb : s.busy
    · exact .inr (.inr (.inr ⟨rfl, by simp only [State.unlessBusy, hb]; exact .inr (.inr (.inr (.inr (.inr (.inr (.inl ⟨a, ha, rfl⟩))))))⟩))
    · exact .inl (by simp [State.unlessBusy, hb])
  · rename_i a hp
    refine .inr ⟨_, rfl, ?_⟩
    rcases placeAt_cases hp with ⟨r', h, -⟩ | ⟨a', h, -⟩ | ⟨a', h, -, ha, h4, -⟩ <;> cases h
    cases hb : s.busy
    · exact .inr (.inr (.inr ⟨rfl, by simp only [State.unlessBusy, hb]; exact .inr (.inr (.inr (.inr (.inr (.inr (.inr ⟨a, ha, h4, rfl⟩))))))⟩))
    · exact .inl (by simp [State.unlessBusy, hb])

end Sys2Proof.Machine
end

