-- ==== Sys2Proof/Laws/Bus.lean ====
section
/-! SUPPORT. What a step is for each event, and each register and MBUF access by its offset. -/

namespace Sys2Proof.Machine

variable {s : State} {rest : List Event}

/-- With nothing left to do, a step is the engine's turn. -/
theorem step_nil (h : s.inputs = []) : step s = s.engineTurn := by simp [step, h]

/-- The engine's turn among the inputs. -/
theorem step_engine (h : s.inputs = .engine :: rest) : step s = State.engineTurn { s with inputs := rest } := by
  simp [step, h, State.onEvent]

theorem step_rst (h : s.inputs = .rst :: rest) : step s = .next (State.resetEvent { s with inputs := rest }) := by
  simp [step, h, State.onEvent]

theorem step_poll (h : s.inputs = .poll :: rest) : step s = .next (State.pollStatus { s with inputs := rest }) := by
  simp [step, h, State.onEvent]

theorem step_write {addr : Nat} {size : Width} {wdata : Word} (h : s.inputs = .write addr size wdata :: rest) :
    step s = .next (State.hostWrite { s with inputs := rest } addr size wdata) := by
  simp [step, h, State.onEvent]

theorem step_read {addr : Nat} {size : Width} (h : s.inputs = .read addr size :: rest) :
    step s = .next (State.hostRead { s with inputs := rest } addr size) := by
  simp [step, h, State.onEvent]

/-- A Write inside the window is the FCC's, at its offset (R61). -/
theorem step_write_at {off : Nat} {size : Width} {wdata : Word} (ho : off < 0x20000)
    (h : s.inputs = .write (s.cfg.base + off) size wdata :: rest) :
    step s = .next (State.busWrite { s with inputs := rest } off size wdata) := by
  rw [step_write h]
  simp [State.hostWrite, Config.offsetOf_base (c := s.cfg) (off := off) ho]

/-- A Read inside the window is the FCC's, at its offset (R61). -/
theorem step_read_at {off : Nat} {size : Width} (ho : off < 0x20000)
    (h : s.inputs = .read (s.cfg.base + off) size :: rest) :
    step s = .next (State.busRead { s with inputs := rest } off size) := by
  rw [step_read h]
  simp [State.hostRead, Config.offsetOf_base (c := s.cfg) (off := off) ho]

/-- A 4-byte write at a register's offset. -/
theorem step_write_reg (r : Reg) {wdata : Word} (h : s.inputs = .write (s.cfg.base + r.offset) .word wdata :: rest) :
    step s = .next (if r.readOnly then State.answer { s with inputs := rest } (.write .error)
      else (State.writeReg { s with inputs := rest } r wdata).answer (.write .ok)) := by
  rw [step_write_at (by have := r.offset_lt; omega) h]
  simp [State.busWrite]

/-- A 4-byte read at a register's offset. -/
theorem step_read_reg (r : Reg) (h : s.inputs = .read (s.cfg.base + r.offset) .word :: rest) :
    step s = .next (if s.busy && r.volatile then
        State.answer { s with inputs := rest, draws := s.draws + 1 } (.read .ok (Config.volatileWord s.draws))
      else State.answer { s with inputs := rest } (.read .ok (s.readReg r))) := by
  rw [step_read_at (by have := r.offset_lt; omega) h]
  cases r <;> simp [State.busRead, State.busy, Place.volatile, State.readPlace, volatileValue] <;> rfl

/-- An access inside MBUF lies inside the window (R6, R20). -/
theorem mbuf_lt_window {c : Config} {a : Nat} (hc : c.legal = true) (h : a < c.mbufBytes) :
    mbufOffset + a < 0x20000 := by
  simp only [Config.legal, Bool.and_eq_true, decide_eq_true_eq] at hc
  simp only [mbufOffset]
  omega

/-! ### What a step can do -/

/-- With inputs a step is the first of them; without, the engine's turn. -/
theorem step_cases {t : State} (h : step s = .next t) :
    (s.inputs = [] ∧ s.engineTurn = .next t) ∨
    ∃ e rest, s.inputs = e :: rest ∧ State.onEvent { s with inputs := rest } e = .next t := by
  unfold step at h
  split at h
  · exact .inl ⟨‹_›, h⟩
  · exact .inr ⟨_, _, ‹_›, h⟩

/-- Only addresses in the window have an offset (R61). -/
theorem eq_of_offsetOf {c : Config} {addr off : Nat} (h : Config.offsetOf c addr = some off) :
    addr = c.base + off ∧ off < 0x20000 := by
  unfold Config.offsetOf at h
  by_cases hc : c.base ≤ addr ∧ addr < c.base + Config.windowBytes
  · rw [if_pos hc] at h
    cases h
    simp only [Config.windowBytes] at hc
    omega
  · rw [if_neg hc] at h
    cases h

/-- A read adds one response and may draw a free value. -/
theorem State.busRead_frame (s : State) (off : Nat) (size : Width) :
    ∃ dr reps, s.busRead off size = { s with draws := dr, replies := reps } ∧ ∃ r, reps = r :: s.replies := by
  rcases State.busRead_cases s off size with ⟨-, h⟩ | ⟨_, _, _, _, h⟩ | ⟨_, _, _, h⟩ <;> rw [h] <;>
    exact ⟨_, _, rfl, _, rfl⟩

/-- What a step that reads can do. -/
theorem read_step_frame {t : State} {addr : Nat} {size : Width} (he : s.inputs = .read addr size :: rest)
    (h : step s = .next t) :
    ∃ dr reps, t = { s with inputs := rest, draws := dr, replies := reps } ∧
      (reps = s.replies ∨ ∃ r, reps = r :: s.replies) := by
  rw [step_read he] at h
  have h := (Host.Outcome.next.inj h).symm
  unfold State.hostRead at h
  split at h
  · obtain ⟨dr, reps, e, h'⟩ := State.busRead_frame { s with inputs := rest } ‹_› size
    exact ⟨dr, reps, h.trans e, .inr h'⟩
  · exact ⟨_, _, h, .inl rfl⟩

/-- What a step of the polling loop can do. -/
theorem poll_step_frame {t : State} (he : s.inputs = .poll :: rest) (h : step s = .next t) :
    ∃ dr reps ins, t = { s with inputs := ins, draws := dr, replies := reps } := by
  rw [step_poll he] at h
  have h := (Host.Outcome.next.inj h).symm
  unfold State.pollStatus at h
  obtain ⟨dr, reps, e, -⟩ := State.busRead_frame { s with inputs := rest } Reg.status.offset .word
  split at h
  · exact ⟨dr, reps, _, by rw [h, e]⟩
  · exact ⟨dr, reps, rest, by rw [h, e]⟩

/-- What a step that writes can do: nothing outside the window; else a bus error, or an OK response after one of the
updates of `State.busWrite_cases`. -/
theorem write_step_cases {t : State} {addr : Nat} {size : Width} {d : Word}
    (he : s.inputs = .write addr size d :: rest) (h : step s = .next t) :
    t = { s with inputs := rest } ∨
    ∃ off, addr = s.cfg.base + off ∧ off < 0x20000 ∧ ∃ u s' : State, s' = { s with inputs := rest } ∧
      (t = s'.answer (.write .error) ∨
       (t = u.answer (.write .ok) ∧
        (u = s'.dropWrite ∨
         (off = Reg.ctrl.offset ∧ size = .word ∧ d.getLsbD 31 = true ∧ u = s'.resetEvent) ∨
         (off = Reg.status.offset ∧ size = .word ∧ u = s'.acknowledge d) ∨
         (s.busy = false ∧
           (u = s'.setCtrl d ∨ u = s'.issue d ∨ u = { s' with keyin := d } ∨ u = { s' with din0 := d } ∨
            u = { s' with din1 := d } ∨
            (off = Reg.mlen.offset ∧ size = .word ∧ d.toNat ≤ s.cfg.mbufBytes ∧ u = { s' with mlen := d.toNat }) ∨
            (∃ a, a < s.cfg.mbufBytes ∧ u = s'.writeByte a (d.extractLsb' 0 8)) ∨
            ∃ a, a < s.cfg.mbufBytes ∧ a % 4 = 0 ∧ u = { s' with mbuf := Memory.setWord s.mbuf a d }))))) := by
  rw [step_write he] at h
  have h := (Host.Outcome.next.inj h).symm
  unfold State.hostWrite at h
  split at h
  · rename_i off ho
    obtain ⟨ha, hlt⟩ := eq_of_offsetOf ho
    refine .inr ⟨off, ha, hlt, ?_⟩
    have hz (r : Reg) (hr : off = r.offset) :
        size = .word ∨ t = State.answer { s with inputs := rest } (.write .error) := by
      by_cases hz : size = .word
      · exact .inl hz
      · right
        rw [h, hr]
        have := r.offset_lt
        cases size <;> simp_all [State.busWrite, placeAt, mbufOffset, show r.offset < 4096 by omega]
    rcases State.busWrite_cases { s with inputs := rest } off size d with e | ⟨u, e, hu⟩
    · exact ⟨s, _, rfl, .inl (h.trans e)⟩
    · refine ⟨u, _, rfl, ?_⟩
      rcases hu with rfl | ⟨ho, hd, rfl⟩ | ⟨ho, rfl⟩ | ⟨hn, hu⟩
      · exact .inr ⟨h.trans e, .inl rfl⟩
      · exact (hz .ctrl ho).symm.imp id fun hw => ⟨h.trans e, .inr (.inl ⟨ho, hw, hd, rfl⟩)⟩
      · exact (hz .status ho).symm.imp id fun hw => ⟨h.trans e, .inr (.inr (.inl ⟨ho, hw, rfl⟩))⟩
      · by_cases hm : off = Reg.mlen.offset
        · rcases hz .mlen hm with hw | hw
          · exact .inr ⟨h.trans e, .inr (.inr (.inr ⟨hn, by simpa [hw, and_assoc] using hu⟩))⟩
          · exact .inl hw
        · exact .inr ⟨h.trans e, .inr (.inr (.inr ⟨hn, by simpa [hm] using hu⟩))⟩
  · exact .inl h

end Sys2Proof.Machine
end

