-- ==== Sys2Proof/Laws/Memory.lean ====
section
/-! SUPPORT. The laws of MBUF: read after write, what a write leaves alone, and that every memory operation keeps the
canonical form and the bound. -/

namespace Sys2Proof.Machine

/-! ### One byte -/

theorem Memory.lookup_set_same (m : Memory) (a : Nat) (b : Byte) : Memory.lookup (Memory.set m a b) a = some b := by
  induction m with
  | nil => simp [Memory.set, Memory.lookup]
  | cons p m ih =>
    obtain ⟨x, c⟩ := p
    simp only [Memory.set]
    split
    · simp [Memory.lookup]
    · split
      · simp [Memory.lookup]
      · rename_i h
        simpa [Memory.lookup, h] using ih

theorem Memory.lookup_set_other (m : Memory) {a a' : Nat} (b : Byte) (h : a' ≠ a) :
    Memory.lookup (Memory.set m a b) a' = Memory.lookup m a' := by
  induction m with
  | nil => simp [Memory.set, Memory.lookup, h]
  | cons p m ih =>
    obtain ⟨x, c⟩ := p
    simp only [Memory.set]
    split
    · simp [Memory.lookup, h]
    · split
      · rename_i hx
        subst hx
        simp [Memory.lookup, h]
      · simp [Memory.lookup, ih]

theorem Memory.fst_of_mem_set {m : Memory} {a : Nat} {b : Byte} {p : Host.Cell} (h : p ∈ Memory.set m a b) :
    p.1 = a ∨ p ∈ m := by
  induction m with
  | nil => simp_all [Memory.set]
  | cons q m ih =>
    obtain ⟨x, c⟩ := q
    simp only [Memory.set] at h
    split at h
    · rcases List.mem_cons.1 h with rfl | h
      · exact .inl rfl
      · exact .inr h
    · split at h
      · rcases List.mem_cons.1 h with rfl | h
        · exact .inl rfl
        · exact .inr (List.mem_cons_of_mem _ h)
      · rcases List.mem_cons.1 h with rfl | h
        · exact .inr List.mem_cons_self
        · exact (ih h).imp_right (List.mem_cons_of_mem _)

/-- A write of a byte keeps the canonical form. -/
theorem Memory.wf_set {m : Memory} (a : Nat) (b : Byte) (h : Memory.wf m) : Memory.wf (Memory.set m a b) := by
  induction m with
  | nil => simp [Memory.set]
  | cons q m ih =>
    obtain ⟨x, c⟩ := q
    obtain ⟨hx, hm⟩ := List.pairwise_cons.1 h
    simp only [Memory.set]
    split
    · rename_i hlt
      refine List.pairwise_cons.2 ⟨fun p hp => ?_, h⟩
      rcases List.mem_cons.1 hp with rfl | hp
      · exact hlt
      · exact Nat.lt_trans hlt (hx p hp)
    · split
      · rename_i heq
        subst heq
        exact List.pairwise_cons.2 ⟨hx, hm⟩
      · refine List.pairwise_cons.2 ⟨fun p hp => ?_, ih hm⟩
        rcases Memory.fst_of_mem_set hp with h1 | h1
        · simp only [h1]
          omega
        · exact hx p h1

/-- A write of a byte below the bound keeps the bound. -/
theorem Memory.within_set {n : Nat} {m : Memory} {a : Nat} (b : Byte) (h : Memory.within n m) (ha : a < n) :
    Memory.within n (Memory.set m a b) := by
  intro p hp
  rcases Memory.fst_of_mem_set hp with h1 | h1
  · omega
  · exact h p h1

@[simp] theorem Memory.read_set_same (n : Nat) (m : Memory) (a : Nat) (b : Byte) :
    Memory.read n (Memory.set m a b) a = b := by
  simp [Memory.read, Memory.lookup_set_same]

theorem Memory.read_set_other (n : Nat) (m : Memory) {a a' : Nat} (b : Byte) (h : a' ≠ a) :
    Memory.read n (Memory.set m a b) a' = Memory.read n m a' := by
  simp [Memory.read, Memory.lookup_set_other m b h]

/-! ### A run of bytes -/

theorem Memory.wf_setMany {m : Memory} (a : Nat) (bs : List Byte) (h : Memory.wf m) :
    Memory.wf (Memory.setMany m a bs) := by
  induction bs generalizing m a with
  | nil => exact h
  | cons b bs ih => exact ih (a + 1) (Memory.wf_set a b h)

theorem Memory.within_setMany {n : Nat} {m : Memory} {a : Nat} {bs : List Byte} (h : Memory.within n m)
    (ha : a + bs.length ≤ n) : Memory.within n (Memory.setMany m a bs) := by
  induction bs generalizing m a with
  | nil => exact h
  | cons b bs ih =>
    simp only [List.length_cons] at ha
    exact ih (Memory.within_set b h (by omega)) (by omega)

/-- A write of a run leaves every byte outside it alone. -/
theorem Memory.read_setMany_outside (n : Nat) (m : Memory) {a a' : Nat} {bs : List Byte}
    (h : a' < a ∨ a + bs.length ≤ a') : Memory.read n (Memory.setMany m a bs) a' = Memory.read n m a' := by
  induction bs generalizing m a with
  | nil => rfl
  | cons b bs ih =>
    simp only [List.length_cons] at h
    rw [Memory.setMany, ih _ (by omega), Memory.read_set_other n m b (by omega)]

/-- A read inside a written run gives the byte written. -/
theorem Memory.read_setMany_inside (n : Nat) (m : Memory) (a : Nat) {bs : List Byte} {j : Nat} (h : j < bs.length) :
    Memory.read n (Memory.setMany m a bs) (a + j) = bs[j] := by
  induction bs generalizing m a j with
  | nil => simp at h
  | cons b bs ih =>
    rw [Memory.setMany]
    cases j with
    | zero => simp [Memory.read_setMany_outside n (Memory.set m a b) (a := a + 1) (a' := a) (bs := bs) (by omega)]
    | succ j =>
      have := ih (Memory.set m a b) (a + 1) (j := j) (by simpa using h)
      simpa [Nat.add_assoc, Nat.add_comm 1 j] using this

theorem Memory.length_readMany (n : Nat) (m : Memory) (a k : Nat) : (Memory.readMany n m a k).length = k := by
  simp [Memory.readMany]

@[simp] theorem State.length_message (s : State) : s.message.length = s.mlen := Memory.length_readMany ..

theorem State.getElem_message (s : State) {j : Nat} (h : j < s.message.length) : s.message[j] = s.readByte j := by
  simp [State.message, Memory.readMany, State.readByte]

/-! ### Words and frames -/

@[simp] theorem length_bytesBe32 (v : Word) : (bytesBe32 v).length = 4 := rfl

theorem Memory.wf_setWord {m : Memory} (a : Nat) (v : Word) (h : Memory.wf m) : Memory.wf (Memory.setWord m a v) :=
  Memory.wf_setMany a _ h

theorem Memory.within_setWord {n : Nat} {m : Memory} {a : Nat} (v : Word) (h : Memory.within n m) (ha : a + 4 ≤ n) :
    Memory.within n (Memory.setWord m a v) :=
  Memory.within_setMany h ha

theorem Memory.read_setWord_outside (n : Nat) (m : Memory) {a a' : Nat} (v : Word) (h : a' < a ∨ a + 4 ≤ a') :
    Memory.read n (Memory.setWord m a v) a' = Memory.read n m a' :=
  Memory.read_setMany_outside n m h

theorem Memory.wf_setHalves {m : Memory} (a : Nat) (h : Word × Word) (hm : Memory.wf m) :
    Memory.wf (Memory.setHalves m a h) :=
  Memory.wf_setWord _ _ (Memory.wf_setWord _ _ hm)

theorem Memory.within_setHalves {n : Nat} {m : Memory} {a : Nat} (h : Word × Word) (hm : Memory.within n m)
    (ha : a + 8 ≤ n) : Memory.within n (Memory.setHalves m a h) :=
  Memory.within_setWord _ (Memory.within_setWord _ hm (by omega)) (by omega)

theorem Memory.read_setHalves_outside (n : Nat) (m : Memory) {a a' : Nat} (h : Word × Word)
    (ha : a' < a ∨ a + 8 ≤ a') : Memory.read n (Memory.setHalves m a h) a' = Memory.read n m a' := by
  rw [Memory.setHalves, Memory.read_setWord_outside n _ _ (by omega), Memory.read_setWord_outside n _ _ (by omega)]

/-- bytes_be32 is inverse to be32 (R8). -/
theorem be32_bytesBe32 (v : Word) :
    be32 (v.extractLsb' 24 8) (v.extractLsb' 16 8) (v.extractLsb' 8 8) (v.extractLsb' 0 8) = v := by
  ext i hi
  simp only [be32, BitVec.getElem_or, BitVec.getElem_shiftLeft, BitVec.getElem_setWidth, BitVec.getLsbD_extractLsb']
  by_cases h1 : i < 8
  · simp [h1, show i < 24 by omega, show i < 16 by omega, BitVec.getLsbD_eq_getElem hi]
  · by_cases h2 : i < 16
    · simp [h1, h2, show i < 24 by omega, show i - 8 < 8 by omega, show 8 + (i - 8) = i by omega,
        BitVec.getLsbD_eq_getElem hi]
    · by_cases h3 : i < 24
      · simp [h1, h2, h3, show i - 16 < 8 by omega, show ¬ i - 8 < 8 by omega, show 16 + (i - 16) = i by omega,
          BitVec.getLsbD_eq_getElem hi]
      · simp [h1, h2, h3, show i - 24 < 8 by omega, show ¬ i - 16 < 8 by omega, show ¬ i - 8 < 8 by omega,
          show 24 + (i - 24) = i by omega, BitVec.getLsbD_eq_getElem hi]

/-- A word reads back as it was written (R65). -/
@[simp] theorem Memory.readWord_setWord_same (n : Nat) (m : Memory) (a : Nat) (v : Word) :
    Memory.readWord n (Memory.setWord m a v) a = v := by
  have h (j : Nat) (hj : j < 4) : Memory.read n (Memory.setWord m a v) (a + j) = (bytesBe32 v)[j]'(by simpa using hj) :=
    Memory.read_setMany_inside n m a (by simpa using hj)
  have h0 := h 0 (by omega)
  rw [Nat.add_zero] at h0
  rw [Memory.readWord, h0, h 1 (by omega), h 2 (by omega), h 3 (by omega)]
  exact be32_bytesBe32 v

theorem Memory.readWord_setWord_other (n : Nat) (m : Memory) {a a' : Nat} (v : Word) (h : a' + 4 ≤ a ∨ a + 4 ≤ a') :
    Memory.readWord n (Memory.setWord m a v) a' = Memory.readWord n m a' := by
  simp only [Memory.readWord]
  rw [Memory.read_setWord_outside n m v (by omega), Memory.read_setWord_outside n m v (by omega),
    Memory.read_setWord_outside n m v (by omega), Memory.read_setWord_outside n m v (by omega)]

/-- A frame reads back as it was written (R173). -/
@[simp] theorem Memory.readHalves_setHalves_same (n : Nat) (m : Memory) (a : Nat) (h : Word × Word) :
    Memory.readHalves n (Memory.setHalves m a h) a = h := by
  simp only [Memory.readHalves, Memory.setHalves]
  rw [Memory.readWord_setWord_other n _ _ (by omega)]
  simp

theorem Memory.readHalves_setHalves_other (n : Nat) (m : Memory) {a a' : Nat} (h : Word × Word)
    (ha : a' + 8 ≤ a ∨ a + 8 ≤ a') : Memory.readHalves n (Memory.setHalves m a h) a' = Memory.readHalves n m a' := by
  simp only [Memory.readHalves, Memory.setHalves]
  rw [Memory.readWord_setWord_other n _ _ (by omega), Memory.readWord_setWord_other n _ _ (by omega),
    Memory.readWord_setWord_other n _ _ (by omega), Memory.readWord_setWord_other n _ _ (by omega)]

/-! ### The frame loop -/

variable (n : Nat) (g : Word × Word → Word × Word)

theorem Memory.wf_mapFrames (f count : Nat) {m : Memory} (h : Memory.wf m) :
    Memory.wf (Memory.mapFrames n g f count m) := by
  induction count generalizing f m with
  | zero => exact h
  | succ c ih => exact ih (f + 1) (Memory.wf_setHalves _ _ h)

theorem Memory.within_mapFrames {k : Nat} (f count : Nat) {m : Memory} (h : Memory.within k m)
    (hk : 8 * (f + count) ≤ k) : Memory.within k (Memory.mapFrames n g f count m) := by
  induction count generalizing f m with
  | zero => exact h
  | succ c ih => exact ih (f + 1) (Memory.within_setHalves _ h (by omega)) (by omega)

/-- The frame loop leaves every byte outside its frames alone. -/
theorem Memory.read_mapFrames_outside (f count : Nat) (m : Memory) {a : Nat} (h : a < 8 * f ∨ 8 * (f + count) ≤ a) :
    Memory.read n (Memory.mapFrames n g f count m) a = Memory.read n m a := by
  induction count generalizing f m with
  | zero => rfl
  | succ c ih => rw [Memory.mapFrames, ih (f + 1) _ (by omega), Memory.read_setHalves_outside n m _ (by omega)]

/-- The frame loop leaves every frame outside its range alone. -/
theorem Memory.readHalves_mapFrames_outside (f count : Nat) (m : Memory) {j : Nat} (h : j < f ∨ f + count ≤ j) :
    Memory.readHalves n (Memory.mapFrames n g f count m) (8 * j) = Memory.readHalves n m (8 * j) := by
  induction count generalizing f m with
  | zero => rfl
  | succ c ih => rw [Memory.mapFrames, ih (f + 1) _ (by omega), Memory.readHalves_setHalves_other n m _ (by omega)]

/-- Every frame of the loop holds the transform of what that frame held before (R176). -/
theorem Memory.readHalves_mapFrames_inside (f count : Nat) (m : Memory) {j : Nat} (h : f ≤ j ∧ j < f + count) :
    Memory.readHalves n (Memory.mapFrames n g f count m) (8 * j) = g (Memory.readHalves n m (8 * j)) := by
  induction count generalizing f m with
  | zero => omega
  | succ c ih =>
    rw [Memory.mapFrames]
    by_cases hj : j = f
    · subst hj
      rw [Memory.readHalves_mapFrames_outside n g (j + 1) c _ (by omega), Memory.readHalves_setHalves_same]
    · rw [ih (f + 1) _ (by omega), Memory.readHalves_setHalves_other n m _ (by omega)]

end Sys2Proof.Machine
end

