-- ==== Sys2Proof/Laws/Cipher.lean ====
section
/-! SUPPORT. Small laws of the cipher's operations: subkeys, rounds, blocks and frames. -/

namespace Sys2Proof.Machine

/-! ### The key schedule (R110) -/

/-- A subkey as a number. -/
theorem subkey_toNat (step key : Word) (i : Nat) :
    (subkey step key i).toNat = (key.toNat + i * step.toNat) % 2 ^ 32 := by
  simp [subkey, BitVec.toNat_add, BitVec.toNat_mul, BitVec.toNat_ofNat]

/-- The subkey file of a schedule. -/
theorem keySchedule_getElem (step key : Word) (i : Nat) (h : i < 16) :
    (keySchedule step key)[i] = subkey step key i := by
  simp [keySchedule]

/-! ### Rounds (R130, R132) -/

theorem encRounds_append (xs ys : List Word) (h : Word × Word) :
    encRounds (xs ++ ys) h = encRounds ys (encRounds xs h) := by
  induction xs generalizing h with
  | nil => rfl
  | cons x xs ih => exact ih _

theorem decRounds_append (xs ys : List Word) (h : Word × Word) :
    decRounds (xs ++ ys) h = decRounds ys (decRounds xs h) := by
  induction xs generalizing h with
  | nil => rfl
  | cons x xs ih => exact ih _

/-- One more round takes the next subkey. -/
theorem encRounds_take_succ (ks : List Word) (h : Word × Word) (i : Nat) (hi : i < ks.length) :
    encRounds (ks.take (i + 1)) h = encRound ks[i] (encRounds (ks.take i) h) := by
  rw [← List.take_append_getElem hi, encRounds_append]
  rfl

theorem decRounds_take_succ (ks : List Word) (h : Word × Word) (i : Nat) (hi : i < ks.length) :
    decRounds (ks.take (i + 1)) h = decRound ks[i] (decRounds (ks.take i) h) := by
  rw [← List.take_append_getElem hi, decRounds_append]
  rfl

/-! ### Bytes of a word (R8) -/

/-- be32 as a number. -/
theorem be32_toNat (a b c d : Byte) :
    (be32 a b c d).toNat = a.toNat * 2 ^ 24 + b.toNat * 2 ^ 16 + c.toNat * 2 ^ 8 + d.toNat := by
  have ha := a.isLt
  have hb := b.isLt
  have hc := c.isLt
  have hd := d.isLt
  have add (x y k : Nat) (h : y < 2 ^ k) : x * 2 ^ k ||| y = x * 2 ^ k + y := by
    rw [Nat.mul_comm, Nat.two_pow_add_eq_or_of_lt h]
  have lt (x : Byte) (k : Nat) (h : k ≤ 24) : x.toNat % 2 ^ 32 * 2 ^ k % 2 ^ 32 = x.toNat * 2 ^ k := by
    have hx := x.isLt
    rw [Nat.mod_eq_of_lt (a := x.toNat) (by omega), Nat.mod_eq_of_lt]
    calc x.toNat * 2 ^ k < 2 ^ 8 * 2 ^ k := Nat.mul_lt_mul_of_pos_right hx (by positivity)
      _ = 2 ^ (8 + k) := (Nat.pow_add 2 8 k).symm
      _ ≤ 2 ^ 32 := Nat.pow_le_pow_right (by decide) (by omega)
  simp only [be32, BitVec.toNat_or, BitVec.toNat_shiftLeft, BitVec.toNat_setWidth, Nat.shiftLeft_eq]
  rw [lt a 24 (by omega), lt b 16 (by omega), lt c 8 (by omega), Nat.mod_eq_of_lt (by omega : d.toNat < 2 ^ 32),
    add _ _ 24 (by omega),
    show a.toNat * 2 ^ 24 + b.toNat * 2 ^ 16 = (a.toNat * 2 ^ 8 + b.toNat) * 2 ^ 16 by omega, add _ _ 16 (by omega),
    show (a.toNat * 2 ^ 8 + b.toNat) * 2 ^ 16 + c.toNat * 2 ^ 8 = (a.toNat * 2 ^ 16 + b.toNat * 2 ^ 8 + c.toNat) * 2 ^ 8
      by omega, add _ _ 8 (by omega)]

/-- The four bytes of be32. -/
theorem bytesBe32_be32 (a b c d : Byte) : bytesBe32 (be32 a b c d) = [a, b, c, d] := by
  have ha := a.isLt
  have hb := b.isLt
  have hc := c.isLt
  have hd := d.isLt
  simp only [bytesBe32, List.cons.injEq, and_true]
  refine ⟨?_, ?_, ?_, ?_⟩ <;> apply BitVec.eq_of_toNat_eq <;>
    simp only [BitVec.extractLsb'_toNat, be32_toNat, Nat.shiftRight_eq_div_pow] <;> omega

/-- The engine on the bytes of two halves (R134). -/
theorem onBlock_bytes (g : Word × Word → Word × Word) (x y : Word) :
    onBlock g (bytesBe32 x ++ bytesBe32 y) = .ok (bytesBe32 (g (x, y)).1 ++ bytesBe32 (g (x, y)).2) := by
  simp only [onBlock, bytesBe32, List.cons_append, List.nil_append, be32_bytesBe32]

/-! ### Fields of FRAMEINFO (R32) -/

theorem fields_frameWord {nf ll : Nat} (h1 : nf < 2 ^ 16) (h2 : ll < 2 ^ 8) :
    ((frameWord nf ll).extractLsb' 0 16).toNat = nf ∧ ((frameWord nf ll).extractLsb' 16 8).toNat = ll ∧
      (frameWord nf ll).extractLsb' 24 8 = 0#8 := by
  have hn : (frameWord nf ll).toNat = ll * 2 ^ 16 + nf := by
    simp only [frameWord, BitVec.toNat_or, BitVec.toNat_shiftLeft, BitVec.toNat_ofNat]
    rw [Nat.mod_eq_of_lt (by omega : ll < 2 ^ 32), Nat.mod_eq_of_lt (by omega : nf < 2 ^ 32), Nat.shiftLeft_eq,
      Nat.mod_eq_of_lt (by omega), Nat.mul_comm, Nat.two_pow_add_eq_or_of_lt h1]
  refine ⟨?_, ?_, BitVec.eq_of_toNat_eq ?_⟩ <;>
    simp only [BitVec.extractLsb'_toNat, hn, Nat.shiftRight_eq_div_pow] <;> simp <;> omega

/-! ### The message (R30, R150) -/

/-- The padding count is in 1..8 (R150). -/
theorem padCount_bounds (n : Nat) : 1 ≤ padCount n ∧ padCount n ≤ 8 := by unfold padCount; omega

@[simp] theorem length_padBytes (n : Nat) : (padBytes n).length = padCount n := by simp [padBytes]

@[simp] theorem length_padMessage (m : List Byte) : (padMessage m).length = m.length + padCount m.length := by
  simp [padMessage]

theorem getLast?_padMessage (m : List Byte) :
    (padMessage m).getLast? = some (BitVec.ofNat 8 (padCount m.length)) := by
  have := padCount_bounds m.length
  rw [padMessage, padBytes, List.getLast?_append, List.getLast?_replicate]
  simp [show padCount m.length ≠ 0 by omega]

/-- A message that is not empty ends with the byte at MLEN - 1 (R155). -/
theorem State.getLast?_message (s : State) (h : s.mlen ≠ 0) :
    s.message.getLast? = some (s.readByte (s.mlen - 1)) := by
  rw [List.getLast?_eq_getElem?, State.length_message,
    List.getElem?_eq_getElem (by rw [State.length_message]; omega), State.getElem_message]

/-- Equal bytes below MLEN are an equal message. -/
theorem State.message_eq {s : State} {d : List Byte} (hl : d.length = s.mlen)
    (h : ∀ j (hj : j < d.length), s.readByte j = d[j]) : s.message = d := by
  apply List.ext_getElem
  · simp [hl]
  · intro j h1 h2
    rw [State.getElem_message, h]

end Sys2Proof.Machine
end

