-- ==== Sys2Proof/Laws/Decode.lean ====
section
/-! SUPPORT. The fields of an encoded command, and what an accepted word is. -/

namespace Sys2Proof

@[simp] theorem reservedField_encode (i : Instr) : reservedField (encode i) = 0#24 := by cases i <;> rfl

@[simp] theorem opcodeField_encode (i : Instr) : opcodeField (encode i) = opcode i := by cases i <;> rfl

@[simp] theorem opcodeMap_opcode (i : Instr) : opcodeMap (opcode i) = some i := by cases i <;> rfl

/-- A word is its two fields. -/
theorem toNat_eq_fields (w : Word) : w.toNat = (reservedField w).toNat * 256 + (opcodeField w).toNat := by
  simp only [reservedField, opcodeField, BitVec.extractLsb'_toNat, Nat.shiftRight_eq_div_pow]
  have := w.isLt
  omega

/-- The opcodes of the map are 0x00 to 0x09 (R91). -/
theorem opcodeMap_isSome (b : Byte) : (opcodeMap b).isSome ↔ b.toNat ≤ 0x09 := by
  unfold opcodeMap
  split <;> simp_all
  rename_i h0 h1 h2 h3 h4 h5 h6 h7 h8 h9
  omega

theorem opcode_of_opcodeMap {b : Byte} {i : Instr} (h : opcodeMap b = some i) : opcode i = b := by
  unfold opcodeMap at h
  apply BitVec.eq_of_toNat_eq
  split at h <;> cases h <;> simp_all [opcode]

/-- What it is for the decoder to accept a word: RSV is 0 and OPCODE is in the map. -/
theorem decode_eq_ok {w : Word} {i : Instr} :
    decode w = .ok i ↔ reservedField w = 0#24 ∧ opcodeMap (opcodeField w) = some i := by
  unfold decode
  split
  · simp_all
  · split <;> simp_all

end Sys2Proof
end

