-- ==== Sys2Proof/Laws/PerInstr.lean ====
section
/-! SUPPORT. The per-command law: the word of a command has RSV = 0 and a defined OPCODE, and decodes to the command. -/

namespace Sys2Proof.Laws.DecodesBack

/-- The word of the command is well formed (R90, R91) and decodes to it. -/
def Statement (i : Instr) : Prop := WellFormed.word (encode i) = true ∧ decode (encode i) = .ok i

theorem nop : Statement .nop := ⟨rfl, rfl⟩

theorem loadkey : Statement .loadkey := ⟨rfl, rfl⟩

theorem roundf : Statement .roundf := ⟨rfl, rfl⟩

theorem encb : Statement .encb := ⟨rfl, rfl⟩

theorem decb : Statement .decb := ⟨rfl, rfl⟩

theorem pad : Statement .pad := ⟨rfl, rfl⟩

theorem unpad : Statement .unpad := ⟨rfl, rfl⟩

theorem split : Statement .split := ⟨rfl, rfl⟩

theorem encbuf : Statement .encbuf := ⟨rfl, rfl⟩

theorem decbuf : Statement .decbuf := ⟨rfl, rfl⟩

end Sys2Proof.Laws.DecodesBack
end

