-- ==== Sys2Proof/Tests/Slice0.lean ====
section
/-! SUPPORT. Tests: words from R90 and R91, vectors of 95_test_vectors.md, and for each statement with hypotheses a witness
that meets them (named witness_ and the statement's name). -/

namespace Sys2Proof.Tests

open Sys2Proof.Machine

/-! ### The test states -/

/-- The reset state with these inputs. -/
def idle (es : List Event) : State := { State.reset with inputs := es }

/-- A state with the word `w` pending and these inputs. -/
def busyWith (w : Word) (es : List Event) : State := { State.reset with pend := some w, inputs := es }

/-- `s` with the key `k` loaded. -/
def withKey (k : Word) (s : State) : State :=
  { s with keyin := k, akey := k, sk := keySchedule s.cfg.ksStep k, keyValid := true }

/-- `s` with the message `bs`. -/
def withMsg (bs : List Byte) (s : State) : State := { s with mbuf := Memory.setMany [] 0 bs, mlen := bs.length }

/-- A test of the next state; false of a fault or a refusal. -/
def answers (o : Host.Outcome State Fault Refusal) (p : State → Bool) : Bool :=
  match o with
  | .next t => p t
  | .fault _ => false
  | .refused _ => false

/-- The default BASE (R6). -/
def b0 : Nat := 0x40000000

/-- "Hello, World!" padded (S1). -/
def helloPadded : List Byte :=
  [0x48, 0x65, 0x6C, 0x6C, 0x6F, 0x2C, 0x20, 0x57, 0x6F, 0x72, 0x6C, 0x64, 0x21, 0x03, 0x03, 0x03]

/-- Its ciphertext under the key 1A2B3C4D (V-MSG-1). -/
def helloCipher : List Byte :=
  [0x2F, 0x19, 0x1C, 0x77, 0x6D, 0x7F, 0x14, 0xDE, 0x44, 0x25, 0x3E, 0x23, 0x2B, 0x48, 0x35, 0xC6]

/-! ### Well-formedness: each check refuses an ill-formed term -/

theorem test_wf_reserved_bit : WellFormed.reservedClear 0x00000100#32 = false ∧ WellFormed.word 0x00000101#32 = false := by
  decide

theorem test_wf_opcode : WellFormed.opcodeDefined 0x0000000A#32 = false ∧ WellFormed.word 0x0000000A#32 = false ∧
    WellFormed.word 0x00000009#32 = true := by
  decide

theorem test_wf_base : Config.legal { Config.testDefault with base := 0x40000004 } = false := by decide

theorem test_wf_mbuf_multiple : Config.legal { Config.testDefault with mbufBytes := 1020 } = false := by decide

theorem test_wf_mbuf_range : Config.legal { Config.testDefault with mbufBytes := 8 } = false ∧
    Config.legal { Config.testDefault with mbufBytes := 65544 } = false ∧
    Config.legal { Config.testDefault with mbufBytes := 16 } = true ∧
    Config.legal { Config.testDefault with mbufBytes := 65536 } = true := by
  decide

theorem test_wf_memory : ¬ Memory.wf [(1, 0#8), (1, 0#8)] ∧ ¬ Memory.within 16 [(16, 0#8)] := by decide

/-! ### Decoding: RSV [31:8] then OPCODE [7:0], bit by bit (R90, R91) -/

theorem test_decode_nop : decode 0b00000000000000000000000000000000#32 = .ok .nop := by decide

theorem test_decode_loadkey : decode 0b00000000000000000000000000000001#32 = .ok .loadkey := by decide

theorem test_decode_roundf : decode 0b00000000000000000000000000000010#32 = .ok .roundf := by decide

theorem test_decode_encb : decode 0b00000000000000000000000000000011#32 = .ok .encb := by decide

theorem test_decode_decb : decode 0b00000000000000000000000000000100#32 = .ok .decb := by decide

theorem test_decode_pad : decode 0b00000000000000000000000000000101#32 = .ok .pad := by decide

theorem test_decode_unpad : decode 0b00000000000000000000000000000110#32 = .ok .unpad := by decide

theorem test_decode_split : decode 0b00000000000000000000000000000111#32 = .ok .split := by decide

theorem test_decode_encbuf : decode 0b00000000000000000000000000001000#32 = .ok .encbuf := by decide

theorem test_decode_decbuf : decode 0b00000000000000000000000000001001#32 = .ok .decbuf := by decide

/-- V-CTL-2: the reserved words. -/
theorem test_decode_refuses : decode 0b00000000000000000000000000001010#32 = .error .reservedOpcode ∧
    decode 0b00000000000000000000000100000001#32 = .error .reservedBits := by
  decide

theorem test_table_word : decodeTableWord 32 8 = some .encbuf ∧ decodeTableWord 32 10 = none := by decide

/-! ### Commands -/

/-- V-CTL-1: NOP after a completion with ERRCODE = 6. -/
theorem test_nop : answers (exec .nop { State.reset with errCode := .emptyInput }) (fun t => t.statusWord == 0x00000002#32) =
    true := by
  decide

/-- V-KS-2: some subkeys, and STATUS. -/
theorem test_loadkey : answers (exec .loadkey { State.reset with keyin := 0x1A2B3C4D#32 }) (fun t =>
    t.sk[1] == 0x1A2D1E8D#32 && t.sk[15] == 0x1A477E0D#32 && t.statusWord == 0x00000006#32) = true := by
  decide

/-- V-KS-3: the schedule wraps. -/
theorem test_loadkey_wraps : answers (exec .loadkey { State.reset with keyin := 0xFFFFFFFF#32 }) (fun t =>
    t.sk[0] == 0xFFFFFFFF#32 && t.sk[1] == 0x0001E23F#32 && t.sk[15] == 0x001C41BF#32) = true := by
  decide

/-- V-F-6. -/
theorem test_roundf : answers (exec .roundf { State.reset with din0 := 0x6F2C2057#32, din1 := 0x1A2B3C4D#32, dout1 := 7#32 })
    (fun t => t.dout0 == 0x7F2F3C5F#32 && t.dout1 == 0#32) = true := by
  decide

/-- V-ENC-3. -/
theorem test_encb : answers (exec .encb (withKey 0x1A2B3C4D#32 { State.reset with din0 := 0x48656C6C#32, din1 := 0x6F2C2057#32 }))
    (fun t => t.dout0 == 0x2F191C77#32 && t.dout1 == 0x6D7F14DE#32) = true := by
  decide

/-- V-ENC-9. -/
theorem test_encb_no_key : answers (exec .encb { State.reset with dout0 := 5#32 })
    (fun t => t.dout0 == 5#32 && t.statusWord == 0x00000402#32) = true := by
  decide

/-- V-DEC-3. -/
theorem test_decb : answers (exec .decb (withKey 0x1A2B3C4D#32 { State.reset with din0 := 0x2F191C77#32, din1 := 0x6D7F14DE#32 }))
    (fun t => t.dout0 == 0x48656C6C#32 && t.dout1 == 0x6F2C2057#32) = true := by
  decide

/-- V-DEC-1: DECB is not ENCB. -/
theorem test_decb_zero : answers (exec .decb (withKey 0#32 State.reset))
    (fun t => t.dout0 == 0x00065080#32 && t.dout1 == 0x00183000#32) = true := by
  decide

/-- V-PAD-5. -/
theorem test_pad : answers (exec .pad (withMsg (helloPadded.take 13) State.reset))
    (fun t => t.mlen == 16 && t.message == helloPadded) = true := by
  decide

/-- V-PAD-7. -/
theorem test_pad_capacity : answers (exec .pad { State.reset with mlen := 1024 })
    (fun t => t.mlen == 1024 && t.mbuf == [] && t.statusWord == 0x00000502#32) = true := by
  decide

/-- V-UNPAD-4: k > MLEN. -/
theorem test_unpad_lenient : answers (exec .unpad (withMsg [1, 2, 5] State.reset))
    (fun t => t.mlen == 0 && t.errCode == .ok && t.mbuf == [(0, 1), (1, 2), (2, 5)]) = true := by
  decide

/-- V-UNPAD-5s. -/
theorem test_unpad_strict : answers (exec .unpad (withMsg (helloPadded.set 13 1) { State.reset with strictPad := true }))
    (fun t => t.mlen == 16 && t.errCode == .invalidPadding) = true := by
  decide

/-- V-SPLIT-2. -/
theorem test_split : answers (exec .split { State.reset with mlen := 13 }) (fun t => t.frameinfo == 0x00050002#32) = true := by
  decide

/-- V-SPLIT-2s. -/
theorem test_split_strict : answers (exec .split { State.reset with mlen := 13, strictSplit := true })
    (fun t => t.frameinfo == 0#32 && t.errCode == .truncatedInput) = true := by
  decide

/-- V-MSG-1. -/
theorem test_encbuf : answers (exec .encbuf (withKey 0x1A2B3C4D#32 (withMsg helloPadded State.reset)))
    (fun t => t.message == helloCipher && t.frameinfo == 0x00080002#32) = true := by
  decide

/-- V-MSG-6: NO_KEY before the length check. -/
theorem test_encbuf_no_key : answers (exec .encbuf { State.reset with mlen := 13 }) (fun t => t.errCode == .noKey) = true := by
  decide

/-- V-MSG-1d. -/
theorem test_decbuf : answers (exec .decbuf (withKey 0x1A2B3C4D#32 (withMsg helloCipher State.reset)))
    (fun t => t.message == helloPadded && t.frameinfo == 0x00080002#32) = true := by
  decide

/-- V-MSG-5 and V-MSG-5s. -/
theorem test_decbuf_length : answers (exec .decbuf (withKey 0#32 { State.reset with mlen := 12 }))
      (fun t => t.errCode == .invalidBlockSize) = true ∧
    answers (exec .decbuf (withKey 0#32 { State.reset with mlen := 12, strictSplit := true }))
      (fun t => t.errCode == .truncatedInput) = true := by
  decide

/-! ### Steps and transactions -/

/-- The host's placing of a table word: the next step completes it. -/
theorem test_withFetchWord : answers (step (State.reset.withFetchWord 32 1)) (fun t => t.keyValid && t.inputs == []) = true := by
  decide

/-- V-CTL-2. -/
theorem test_bad_command : answers (busyWith 0x80000003#32 []).engineTurn (fun t => t.statusWord == 0x00000702#32) = true := by
  decide

/-- V-CTL-3. -/
theorem test_busy_write : answers (step (busyWith 1#32 [.write (b0 + 0x018) .word 9#32]))
    (fun t => t.keyin == 0#32 && t.werr && t.pend == some 1#32 && t.replies == [.write .ok]) = true := by
  decide

/-- V-CTL-4. -/
theorem test_mlen_too_long : answers (step (idle [.write (b0 + 0x01C) .word 1025#32]))
    (fun t => t.mlen == 0 && t.werr && t.replies == [.write .ok]) = true := by
  decide

/-- V-CTL-5 and V-CTL-8. -/
theorem test_bus_errors : answers (step (idle [.read (b0 + 0x1000) .half])) (fun t => t.replies == [.read .error 0#32]) = true ∧
    answers (step (idle [.read (b0 + 0x1001) .word])) (fun t => t.replies == [.read .error 0#32]) = true := by
  decide

/-- V-CTL-9. -/
theorem test_param : answers (step (idle [.read (b0 + 0x004) .word])) (fun t => t.replies == [.read .ok 0x00800810#32]) =
    true := by
  decide

/-- V-CTL-10: the lanes are big-endian. -/
theorem test_word_lanes : answers (step (idle [.write (b0 + 0x1000) .word 0x11223344#32]))
    (fun t => t.mbuf == [(0, 0x11), (1, 0x22), (2, 0x33), (3, 0x44)]) = true := by
  decide

/-- V-CTL-11. -/
theorem test_byte_lane : answers (step (idle [.write (b0 + 0x1005) .byte 0xABCD#32])) (fun t => t.mbuf == [(5, 0xCD)]) = true := by
  decide

/-- V-CTL-12. -/
theorem test_status_write :
    answers (step { idle [.write (b0 + 0x010) .word 0x0000000A#32] with done := true, werr := true, keyValid := true })
      (fun t => t.statusWord == 0x00000004#32) = true := by
  decide

/-- V-RST-2: CTRL = 0 and not 7. -/
theorem test_soft_reset : answers (step (withKey 5#32 (busyWith 3#32 [.write (b0 + 0x00C) .word 0x80000007#32])))
    (fun t => t.ctrlWord == 0#32 && t.statusWord == 0#32 && t.pend == none && t.sk[3] == 0#32) = true := by
  decide

/-- The first transactions of program P1: `setkey 0x1A2B3C4D`. -/
theorem test_setkey_expands : (Stmt.setkey 0x1A2B3C4D#32).expand b0 =
    [.write (b0 + 0x018) .word 0x1A2B3C4D#32, .write (b0 + 0x014) .word 1#32, .poll] := by
  decide

/-- R184: host encrypt of one byte, as transactions. -/
theorem test_hostEncrypt_expands : expandProgram b0 (hostEncrypt [0x41]) =
    [.write (b0 + 0x1000) .byte 0x41#32, .write (b0 + 0x01C) .word 1#32, .write (b0 + 0x014) .word 5#32, .poll,
      .write (b0 + 0x014) .word 8#32, .poll, .read (b0 + 0x01C) .word] := by
  decide

/-! ### Witnesses: encoding and steps -/

theorem witness_DecodeAndEncodeAgree : Instr.wellFormed .decbuf = true ∧ decode 0x00000009#32 = .ok .decbuf := by decide

theorem witness_OtherWordsCompleteWithBadCommand :
    (busyWith 0x0000000A#32 []).pend = some 0x0000000A#32 ∧ 0x0A ≤ ((0x0000000A#32).extractLsb' 0 8).toNat ∧
    (busyWith 0x00000100#32 []).pend = some 0x00000100#32 ∧ (0x00000100#32).extractLsb' 8 24 ≠ 0#24 := by
  decide

theorem witness_StepRunsThePendingCommand :
    (busyWith 9#32 [.engine]).pend = some 9#32 ∧ decode 9#32 = .ok .decbuf ∧ Instr.wellFormed .decbuf = true ∧
    (busyWith 9#32 [.engine]).inputs = .engine :: [] ∧ (busyWith 9#32 []).pend = some 9#32 ∧
    (busyWith 9#32 []).inputs = [] := by
  decide

theorem witness_IdleCommandWriteIssues :
    (idle [.write (b0 + 0x014) .word 3#32]).busy = false ∧
    (idle [.write (b0 + 0x014) .word 3#32]).inputs = .write (State.reset.cfg.base + 0x014) .word 3#32 :: [] := by
  decide

theorem witness_BusyCommandWriteIsDropped :
    (busyWith 1#32 [.write (b0 + 0x014) .word 3#32]).pend = some 1#32 ∧
    (busyWith 1#32 [.write (b0 + 0x014) .word 3#32]).inputs = .write (State.reset.cfg.base + 0x014) .word 3#32 :: [] := by
  decide

/-- A completion that changes KEYVALID, and one of a word that selects no command. -/
theorem witness_CompletionUpdatesStatus :
    (busyWith 1#32 []).pend = some 1#32 ∧ decode 1#32 = .ok .loadkey ∧
    answers (busyWith 1#32 []).engineTurn (fun t => t.keyValid != (busyWith 1#32 []).keyValid) = true ∧
    (busyWith 0x0A#32 []).pend = some 0x0A#32 ∧ decode 0x0A#32 = .error .reservedOpcode := by
  decide

theorem witness_RaisingChangesOnlyStatus :
    answers (exec .encb State.reset) (fun t => t.errCode != .ok) = true ∧ (busyWith 0x0A#32 []).pend = some 0x0A#32 ∧
    answers (busyWith 0x0A#32 []).engineTurn (fun t => t.errCode != .ok) = true := by
  decide

theorem witness_ErrorCodesInCheckOrder :
    (busyWith 0x100#32 []).pend = some 0x100#32 ∧ decode 0x100#32 = .error .reservedBits := by
  decide

theorem witness_OperandsAreStableWhileBusy :
    (busyWith 3#32 [.write (b0 + 0x00C) .word 7#32]).busy = true ∧
    (busyWith 3#32 [.write (b0 + 0x00C) .word 7#32]).inputs = .write (State.reset.cfg.base + 0x00C) .word 7#32 :: [] ∧
    (Event.write (b0 + 0x00C) .word 7#32) ≠ .engine ∧ (Event.write (b0 + 0x00C) .word 7#32) ≠ .rst ∧
    (7#32).getLsbD 31 = false := by
  decide

theorem witness_CmdStatementRunsItsCommand : State.reset.busy = false := by decide

/-! ### Witnesses: reset and the invariant -/

theorem witness_HardwareResetSetsResetValues : (busyWith 3#32 [.rst]).inputs = .rst :: [] := by decide

theorem witness_SoftResetEqualsHardwareReset :
    (0x80000000#32).getLsbD 31 = true ∧
    (busyWith 3#32 [.write (b0 + 0x00C) .word 0x80000000#32]).inputs =
      .write (State.reset.cfg.base + 0x00C) .word 0x80000000#32 :: [] := by
  decide

/-- A state with a key, a message up to the capacity and a FRAMEINFO, which is not the reset state. -/
theorem witness_StepKeepsInvariant :
    ∃ s t : State, s.Inv ∧ step s = .next t ∧ s.mlen = s.cfg.mbufBytes ∧ s.keyValid = true ∧ s.nframes = 128 ∧ t ≠ s := by
  refine ⟨withKey 5#32 { busyWith 7#32 [.engine] with
    mbuf := [(3, 1#8), (1023, 9#8)], mlen := 1024, frameinfo := 0x00080080#32 }, _, ?_, rfl, rfl, rfl, by decide, by decide⟩
  refine ⟨by decide, ⟨by decide, by decide⟩, Nat.le_refl _, ?_, ?_⟩
  · intro i
    revert i
    decide
  · refine ⟨by decide, by decide, by decide, by decide⟩

/-! ### Witnesses: registers and the bus -/

theorem witness_StatusWordLayout :
    (busyWith 3#32 [.read (b0 + 0x010) .word]).inputs = .read (State.reset.cfg.base + 0x010) .word :: [] := by
  decide

theorem witness_IdentificationRegisters :
    State.reset.cfg.legal = true ∧ State.reset.cfg.mbufBytes = 1024 ∧
    (∀ off ∈ [0x000, 0x004, 0x008, 0x014],
      (idle [.read (b0 + off) .word]).inputs = .read (State.reset.cfg.base + off) .word :: []) ∧
    ∀ off ∈ [0x000, 0x004, 0x008],
      (idle [.write (b0 + off) .word 1#32]).inputs = .write (State.reset.cfg.base + off) .word 1#32 :: [] := by
  decide

theorem witness_IdleReadsReturnTheRegisters :
    (idle []).busy = false ∧
    (∀ off ∈ [0x00C, 0x010, 0x018, 0x01C, 0x020, 0x024, 0x028, 0x02C, 0x030],
      (idle [.read (b0 + off) .word]).inputs = .read (State.reset.cfg.base + off) .word :: []) ∧
    ∀ i : Fin 16, (idle [.read (b0 + (0x040 + 4 * i.val)) .word]).inputs =
      .read (State.reset.cfg.base + (0x040 + 4 * i.val)) .word :: [] := by
  decide

/-- Every register of the two lists, both ends of SK, and the last byte and the last word of MBUF. -/
theorem witness_BusyReadsAreStableOrFree :
    State.reset.cfg.legal = true ∧ (busyWith 3#32 []).busy = true ∧
    (∀ off ∈ [0x00C, 0x010, 0x018, 0x020, 0x024, 0x01C, 0x028, 0x02C, 0x030, 0x040, 0x07C, 0x13FC],
      (busyWith 3#32 [.read (b0 + off) .word]).inputs = .read (State.reset.cfg.base + off) .word :: []) ∧
    (busyWith 3#32 [.read (b0 + 0x13FF) .byte]).inputs = .read (State.reset.cfg.base + 0x13FF) .byte :: [] ∧
    1023 < State.reset.cfg.mbufBytes ∧ 1020 % 4 = 0 := by
  decide

theorem witness_ReadsChangeNoFccState : (idle [.read b0 .half]).inputs = .read b0 .half :: [] := by decide

/-- Each clause at both ends of its range. -/
theorem witness_IllegalAccessesAreBusErrors :
    (∀ off ∈ [0x034, 0x03C, 0x080, 0xFFC, 0x1400, 0x1FFFC, 0x001, 0x07F, 0x1001, 0x13FD], off < 0x20000 ∧
      ((0x034 ≤ off ∧ off < 0x040) ∨ (0x080 ≤ off ∧ off < 0x1000) ∨ 0x1000 + State.reset.cfg.mbufBytes ≤ off ∨
        (off < 0x080 ∧ off % 4 ≠ 0) ∨ (0x1000 ≤ off ∧ (off - 0x1000) % 4 ≠ 0)) ∧
      (idle [.read (b0 + off) .word]).inputs = .read (State.reset.cfg.base + off) .word :: [] ∧
      (idle [.write (b0 + off) .word 1#32]).inputs = .write (State.reset.cfg.base + off) .word 1#32 :: []) ∧
    (∀ off ∈ [0x000, 0x07C, 0x1000, 0x13FE], off < 0x20000 ∧ (off < 0x080 ∨ 0x1000 ≤ off) ∧
      (idle [.read (b0 + off) .half]).inputs = .read (State.reset.cfg.base + off) .half :: []) ∧
    ∀ off ∈ [0x000, 0x004, 0x008, 0x028, 0x02C, 0x030, 0x040, 0x07C], off < 0x20000 ∧
      (idle [.write (b0 + off) .byte 1#32]).inputs = .write (State.reset.cfg.base + off) .byte 1#32 :: [] := by
  decide

/-- Both ends of the register ranges and of MBUF. -/
theorem witness_LegalAccessesAnswerOk :
    State.reset.cfg.legal = true ∧
    (∀ off ∈ [0x000, 0x030, 0x040, 0x07C], off % 4 = 0 ∧ (off < 0x034 ∨ (0x040 ≤ off ∧ off < 0x080)) ∧
      (idle [.read (b0 + off) .word]).inputs = .read (State.reset.cfg.base + off) .word :: []) ∧
    (∀ off ∈ [0x1000, 0x13FF], 0x1000 ≤ off ∧ off < 0x1000 + State.reset.cfg.mbufBytes ∧
      (idle [.read (b0 + off) .byte]).inputs = .read (State.reset.cfg.base + off) .byte :: [] ∧
      (busyWith 3#32 [.write (b0 + off) .byte 1#32]).inputs = .write (State.reset.cfg.base + off) .byte 1#32 :: []) ∧
    (∀ off ∈ [0x1000, 0x13FC], off < 0x1000 + State.reset.cfg.mbufBytes ∧ (off - 0x1000) % 4 = 0 ∧
      (idle [.read (b0 + off) .word]).inputs = .read (State.reset.cfg.base + off) .word :: [] ∧
      (idle [.write (b0 + off) .word 1#32]).inputs = .write (State.reset.cfg.base + off) .word 1#32 :: []) ∧
    ∀ off ∈ [0x00C, 0x010, 0x014, 0x018, 0x01C, 0x020, 0x024],
      (busyWith 3#32 [.write (b0 + off) .word 1#32]).inputs = .write (State.reset.cfg.base + off) .word 1#32 :: [] := by
  decide

/-- The four kinds of dropped write, with the first MLEN that is too long. -/
theorem witness_DroppedWritesSetOnlyWerr_drop :
    State.reset.cfg.legal = true ∧ (busyWith 3#32 []).busy = true ∧ (7#32).getLsbD 31 = false ∧
    (∀ off ∈ [0x00C, 0x014, 0x018, 0x01C, 0x020, 0x024, 0x13FC],
      (busyWith 3#32 [.write (b0 + off) .word 7#32]).inputs = .write (State.reset.cfg.base + off) .word 7#32 :: []) ∧
    (busyWith 3#32 [.write (b0 + 0x13FF) .byte 7#32]).inputs = .write (State.reset.cfg.base + 0x13FF) .byte 7#32 :: [] ∧
    (idle [.write (b0 + 0x01C) .word 1025#32]).inputs = .write (State.reset.cfg.base + 0x01C) .word 1025#32 :: [] ∧
    State.reset.cfg.mbufBytes < (1025#32).toNat := by
  decide

/-- The three ways WERR falls. -/
theorem witness_DroppedWritesSetOnlyWerr_clear :
    ∀ e ∈ [Event.rst, .write (b0 + 0x00C) .word 0x80000000#32, .write (b0 + 0x010) .word 8#32],
      answers (step { idle [e] with werr := true }) (fun t => t.werr == false) = true := by
  decide

theorem witness_StatusWriteClearsByOne :
    (busyWith 3#32 [.write (b0 + 0x010) .word 0xA#32]).inputs = .write (State.reset.cfg.base + 0x010) .word 0xA#32 :: [] := by
  decide

/-- MLEN at the capacity. -/
theorem witness_IdleWritesStore :
    (idle []).busy = false ∧ (1024#32).getLsbD 31 = false ∧ (1024#32).toNat ≤ State.reset.cfg.mbufBytes ∧
    ∀ off ∈ [0x00C, 0x018, 0x01C, 0x020, 0x024],
      (idle [.write (b0 + off) .word 1024#32]).inputs = .write (State.reset.cfg.base + off) .word 1024#32 :: [] := by
  decide

theorem witness_MbufByteLanes :
    State.reset.cfg.legal = true ∧ (idle []).busy = false ∧ 1023 < State.reset.cfg.mbufBytes ∧
    (idle [.read (b0 + 0x13FF) .byte]).inputs = .read (State.reset.cfg.base + (0x1000 + 1023)) .byte :: [] ∧
    (idle [.write (b0 + 0x13FF) .byte 1#32]).inputs = .write (State.reset.cfg.base + (0x1000 + 1023)) .byte 1#32 :: [] := by
  decide

theorem witness_MbufWordLanesAreBigEndian :
    State.reset.cfg.legal = true ∧ (idle []).busy = false ∧ 1020 < State.reset.cfg.mbufBytes ∧ 1020 % 4 = 0 ∧
    1020 = 8 * 127 + 4 ∧ 1016 = 8 * 127 ∧ 1016 % 4 = 0 ∧
    (idle [.read (b0 + 0x13FC) .word]).inputs = .read (State.reset.cfg.base + (0x1000 + 1020)) .word :: [] ∧
    (idle [.read (b0 + 0x13F8) .word]).inputs = .read (State.reset.cfg.base + (0x1000 + 1016)) .word :: [] ∧
    (idle [.write (b0 + 0x13FC) .word 1#32]).inputs = .write (State.reset.cfg.base + (0x1000 + 1020)) .word 1#32 :: [] := by
  decide

/-- The addresses just outside the window. -/
theorem witness_TransactionsOutsideTheWindowPassBy :
    ∀ addr ∈ [0x3FFFFFFF, 0x40020000],
      (addr < State.reset.cfg.base ∨ State.reset.cfg.base + 0x20000 ≤ addr) ∧
      (idle [.read addr .byte]).inputs = .read addr .byte :: [] ∧
      (idle [.write addr .word 1#32]).inputs = .write addr .word 1#32 :: [] := by
  decide

theorem witness_IrqFollowsDoneAndIen :
    (busyWith 0#32 []).pend = some 0#32 ∧ (idle [.rst]).inputs = .rst :: [] ∧ (2#32).getLsbD 1 = true ∧
    (0x80000001#32).getLsbD 31 = true ∧
    (busyWith 3#32 [.write (b0 + 0x00C) .word 0x80000001#32]).inputs =
      .write (State.reset.cfg.base + 0x00C) .word 0x80000001#32 :: [] ∧
    (idle [.write (b0 + 0x010) .word 2#32]).inputs = .write (State.reset.cfg.base + 0x010) .word 2#32 :: [] ∧
    (idle [.write (b0 + 0x00C) .word 1#32]).busy = false ∧ (1#32).getLsbD 31 = false ∧
    (idle [.write (b0 + 0x00C) .word 1#32]).inputs = .write (State.reset.cfg.base + 0x00C) .word 1#32 :: [] := by
  decide

/-- AKEY changes in a completion of LOADKEY, in a reset, in a soft reset; and writes to both ends of SK. -/
theorem witness_OnlyLoadkeyChangesTheSubkeys :
    answers (step { busyWith 1#32 [.engine] with keyin := 5#32 }) (fun t => t.akey != 0#32) = true ∧
    answers (step { busyWith 1#32 [] with keyin := 5#32 }) (fun t => t.akey != 0#32) = true ∧
    answers (step (withKey 5#32 (idle [.rst]))) (fun t => t.akey != 5#32) = true ∧
    answers (step (withKey 5#32 (idle [.write (b0 + 0x00C) .word 0x80000000#32]))) (fun t => t.akey != 5#32) = true ∧
    ∀ i : Fin 16, (idle [.write (b0 + (0x040 + 4 * i.val)) .word 1#32]).inputs =
      .write (State.reset.cfg.base + (0x040 + 4 * i.val)) .word 1#32 :: [] := by
  decide

/-- MLEN changes in PAD and in UNPAD, with and without inputs left, in a reset, in a soft reset and by a host write. -/
theorem witness_MlenChangesOnlyAsTheRuleSays :
    answers (step (busyWith 5#32 [])) (fun t => t.mlen != 0) = true ∧
    answers (step (busyWith 5#32 [.engine, .rst])) (fun t => t.mlen != 0) = true ∧
    answers (step (withMsg [1] (busyWith 6#32 [.engine]))) (fun t => t.mlen != 1) = true ∧
    answers (step (withMsg [1] (busyWith 6#32 []))) (fun t => t.mlen != 1) = true ∧
    answers (step (withMsg [1] (idle [.rst]))) (fun t => t.mlen != 1) = true ∧
    answers (step (withMsg [1] (idle [.write (b0 + 0x00C) .word 0x80000000#32]))) (fun t => t.mlen != 1) = true ∧
    answers (step (idle [.write (b0 + 0x01C) .word 1024#32])) (fun t => t.mlen != 0) = true := by
  decide

/-! ### Witnesses: commands -/

theorem witness_KeyScheduleLaws : 14 < 15 := by decide

theorem witness_RoundFunctionLaws : (0x80000000#32 : Word) ≠ 0#32 := by decide

theorem witness_EncbCompletes : (withKey 5#32 State.reset).keyValid = true ∧ State.reset.keyValid = false := by decide

theorem witness_DecbCompletes : (withKey 5#32 State.reset).keyValid = true ∧ State.reset.keyValid = false := by decide

/-- A block, and halves that meet the rounds of R130 and R132 for F = AND: all zero. -/
theorem witness_DecryptInvertsEncrypt :
    (helloPadded.take 8).length = 8 ∧
    ∃ (f : Word → Word → Word) (sk : Fin 16 → Word) (l r l' r' : Nat → Word),
      (∀ i : Fin 16, l (i.val + 1) = r i.val ∧ r (i.val + 1) = l i.val ^^^ f (r i.val) (sk i)) ∧
      (∀ i : Fin 16, r' i.val = l' (i.val + 1) ∧ l' i.val = r' (i.val + 1) ^^^ f (l' (i.val + 1)) (sk i)) ∧
      r' 16 = r 16 ∧ l' 16 = l 16 :=
  ⟨by decide, fun h s => h &&& s, fun _ => 7#32, fun _ => 0#32, fun _ => 0#32, fun _ => 0#32, fun _ => 0#32, by decide,
    by decide, by decide, by decide⟩

/-- Blocks beside and at the length, and a completion with INVALID_BLOCK_SIZE. -/
theorem witness_BlocksHaveEightBytes :
    answers (exec .decbuf (withKey 0#32 { State.reset with mlen := 15 })) (fun t => t.errCode == .invalidBlockSize) = true ∧
    (helloPadded.take 7).length ≠ 8 ∧ (helloPadded.take 9).length ≠ 8 ∧ ([] : List Byte).length ≠ 8 ∧
    (helloPadded.take 8).length = 8 := by
  decide

/-- Frame 1 of one message and frame 0 of another are equal, and so is the block of DIN0 and DIN1. -/
theorem witness_BlocksAreIndependent :
    let s := withKey 5#32 (withMsg (helloPadded.drop 8 ++ helloPadded.take 8) State.reset)
    let u := withKey 5#32 (withMsg (helloPadded.take 8) State.reset)
    let x := withKey 5#32 { State.reset with din0 := 0x48656C6C#32, din1 := 0x6F2C2057#32 }
    s.sk = u.sk ∧ s.keyValid = true ∧ u.keyValid = true ∧ s.mlen % 8 = 0 ∧ u.mlen % 8 = 0 ∧ 1 < s.mlen / 8 ∧
      0 < u.mlen / 8 ∧ s.frameHalves 1 = u.frameHalves 0 ∧ x.sk = s.sk ∧ x.keyValid = true ∧
      (x.din0, x.din1) = s.frameHalves 1 := by
  decide

theorem witness_PadCompletes :
    ({ State.reset with mlen := 1024 } : State).mlen = State.reset.cfg.mbufBytes ∧
    ({ State.reset with mlen := 1023 } : State).mlen ≠ State.reset.cfg.mbufBytes := by
  decide

theorem witness_PadFitsBelowCapacity :
    State.reset.cfg.legal = true ∧ ({ State.reset with mlen := 1024 } : State).mlen ≤ State.reset.cfg.mbufBytes ∧
    answers (exec .pad { State.reset with mlen := 1023 }) (fun t => t.errCode == .ok) = true := by
  decide

theorem witness_PadComputesPad : ({ State.reset with mlen := 1023 } : State).mlen ≠ State.reset.cfg.mbufBytes := by decide

theorem witness_PaddingLaws : ({ State.reset with mlen := 1023 } : State).mlen < State.reset.cfg.mbufBytes := by decide

/-- An empty message, strict with invalid padding, lenient with a zero last byte, and strict with padding up to MLEN. -/
theorem witness_UnpadCompletes :
    State.reset.cfg.unpadK0 = .keep ∧ State.reset.mlen = 0 ∧
    (let s := withMsg [9] { State.reset with strictPad := true }
     s.mlen ≠ 0 ∧ s.readByte (s.mlen - 1) = 9#8 ∧ s.strictPad = true ∧ ¬ (9#8).toNat ≤ s.mlen) ∧
    (let s := withMsg [0] State.reset
     s.mlen ≠ 0 ∧ s.readByte (s.mlen - 1) = 0#8 ∧ s.strictPad = false) ∧
    (let s := withMsg [2, 2] { State.reset with strictPad := true }
     s.mlen ≠ 0 ∧ s.readByte (s.mlen - 1) = 2#8 ∧ 1 ≤ (2#8).toNat ∧ (2#8).toNat ≤ 8 ∧ (2#8).toNat ≤ s.mlen ∧
       s.readByte (s.mlen - 2) = 2#8) := by
  decide

theorem witness_UnpadComputesUnpad :
    (let s := withMsg [9] { State.reset with strictPad := true }
     s.mlen ≠ 0 ∧ s.strictPad = true ∧ strictValid s.message = false) ∧
    (let s := withMsg [1] { State.reset with strictPad := true }
     s.mlen ≠ 0 ∧ strictValid s.message = true) ∧
    (let s := withMsg [0] State.reset
     s.mlen ≠ 0 ∧ s.strictPad = false ∧ s.readByte (s.mlen - 1) = 0#8) := by
  decide

theorem witness_SplitReportsTheFrames :
    (let s : State := { State.reset with mlen := 1023, strictSplit := true }
     s.strictSplit = true ∧ s.mlen % 8 ≠ 0) ∧
    (let s : State := { State.reset with mlen := 0, strictSplit := true }
     s.mlen % 8 = 0 ∧ s.mlen ≤ 65536 ∧ 0 = (if (s.mlen + 7) / 8 = 0 then 0 else s.mlen - 8 * ((s.mlen + 7) / 8 - 1))) ∧
    (let s : State := { State.reset with mlen := 65535 }
     s.strictSplit = false ∧ s.mlen ≤ 65536 ∧
       7 = (if (s.mlen + 7) / 8 = 0 then 0 else s.mlen - 8 * ((s.mlen + 7) / 8 - 1))) := by
  decide

/-- The last chunk of 13 bytes, and one that is not the last. -/
theorem witness_SplitTilesTheMessage :
    (splitMessage (helloPadded.take 13))[1]? = some [0x6F, 0x72, 0x6C, 0x64, 0x21] ∧
    (splitMessage (helloPadded.take 13))[0]? = some (helloPadded.take 8) ∧
    1 + 1 = (splitMessage (helloPadded.take 13)).length ∧ 0 + 1 < (splitMessage (helloPadded.take 13)).length := by
  decide

/-- The four cases of ENCBUF: no key, a short last frame strict and not, and whole frames, none of them or two. -/
theorem witness_EncbufCompletes :
    State.reset.keyValid = false ∧
    (let s := withKey 5#32 { State.reset with mlen := 1023, strictSplit := true }
     s.keyValid = true ∧ s.mlen % 8 ≠ 0 ∧ s.strictSplit = true) ∧
    (let s := withKey 5#32 { State.reset with mlen := 1 }
     s.keyValid = true ∧ s.mlen % 8 ≠ 0 ∧ s.strictSplit = false) ∧
    (let s := withKey 5#32 State.reset
     s.keyValid = true ∧ s.mlen % 8 = 0 ∧ s.mlen / 8 = 0) ∧
    (let s := withKey 5#32 (withMsg helloPadded State.reset)
     s.keyValid = true ∧ s.mlen % 8 = 0 ∧ 1 < s.mlen / 8) := by
  decide

/-- The four cases of DECBUF. -/
theorem witness_DecbufCompletes :
    State.reset.keyValid = false ∧
    (let s := withKey 5#32 { State.reset with mlen := 9, strictSplit := true }
     s.keyValid = true ∧ s.mlen % 8 ≠ 0 ∧ s.strictSplit = true) ∧
    (let s := withKey 5#32 { State.reset with mlen := 7 }
     s.keyValid = true ∧ s.mlen % 8 ≠ 0 ∧ s.strictSplit = false) ∧
    (let s := withKey 5#32 (withMsg helloCipher State.reset)
     s.keyValid = true ∧ s.mlen % 8 = 0 ∧ 1 < s.mlen / 8) := by
  decide

theorem witness_BufferCommandsRefineTheCipher :
    let s := withKey 5#32 (withMsg helloPadded State.reset)
    s.keyValid = true ∧ s.mlen % 8 = 0 ∧ s.mlen ≠ s.cfg.mbufBytes := by
  decide

theorem witness_DecbufUndoesEncbuf :
    let s := withKey 5#32 (withMsg helloPadded State.reset)
    s.keyValid = true ∧ s.mlen % 8 = 0 := by
  decide

theorem witness_MessageRoundTrip :
    let s := withKey 5#32 { State.reset with mlen := 1023, strictPad := true, strictSplit := true }
    s.keyValid = true ∧ s.mlen < s.cfg.mbufBytes := by
  decide

end Sys2Proof.Tests
end

section
/-! SUPPORT. The identification registers (R21 to R23) and dropped writes (R26, R210): the proofs of O19 and O25. -/

namespace Sys2Proof.Machine

variable {s t : State} {rest : List Event}

/-! ### PARAM (R22) -/

/-- The bounds of R6 on MBUF_BYTES, in the unit PARAM reports it in. -/
theorem Config.legal_mbufBytes {c : Config} (hc : c.legal = true) : 2 ≤ c.mbufBytes / 8 ∧ c.mbufBytes / 8 ≤ 8192 := by
  simp only [Config.legal, Bool.and_eq_true, decide_eq_true_eq] at hc
  omega

/-- PARAM as a number: MBUF_BYTES/8 stands above the constant half 0x0810. -/
theorem toNat_paramWord {c : Config} (h : c.mbufBytes / 8 < 2 ^ 16) :
    (paramWord c).toNat = c.mbufBytes / 8 * 2 ^ 16 + 0x0810 := by
  rw [paramWord, BitVec.or_assoc, show (8#32 <<< 8) ||| 16#32 = 0x0810#32 by decide, BitVec.toNat_or,
    BitVec.toNat_shiftLeft, BitVec.toNat_ofNat, BitVec.toNat_ofNat, Nat.mod_eq_of_lt (by omega), Nat.shiftLeft_eq,
    Nat.mod_eq_of_lt (by omega), Nat.mul_comm, ← Nat.two_pow_add_eq_or_of_lt (by decide)]

/-- ROUNDS, BLOCK_BYTES and MBUF_BYTES/8 are the three fields of PARAM. -/
theorem fields_paramWord {c : Config} (h : c.mbufBytes / 8 < 2 ^ 16) :
    (paramWord c).extractLsb' 0 8 = 16#8 ∧ (paramWord c).extractLsb' 8 8 = 8#8 ∧
      ((paramWord c).extractLsb' 16 16).toNat = c.mbufBytes / 8 := by
  refine ⟨BitVec.eq_of_toNat_eq ?_, BitVec.eq_of_toNat_eq ?_, ?_⟩ <;>
    simp only [BitVec.extractLsb'_toNat, toNat_paramWord h, Nat.shiftRight_eq_div_pow, BitVec.toNat_ofNat] <;> omega

/-! ### Reads of stable registers and writes to read-only ones -/

/-- A register that no command writes reads its value, whatever BUSY is (R45). -/
theorem step_read_stable (r : Reg) (hr : r.volatile = false)
    (h : s.inputs = .read (s.cfg.base + r.offset) .word :: rest) :
    step s = .next { s with inputs := rest, replies := .read .ok (s.readReg r) :: s.replies } := by
  rw [step_read_reg r h, hr, Bool.and_false]
  rfl

/-- A write to a read-only register is a bus error and changes nothing (R67a). -/
theorem step_write_readOnly (r : Reg) (hr : r.readOnly = true) {wdata : Word}
    (h : s.inputs = .write (s.cfg.base + r.offset) .word wdata :: rest) :
    step s = .next { s with inputs := rest, replies := .write .error :: s.replies } := by
  rw [step_write_reg r h, hr]
  rfl

/-- Settles O19: the four registers read are stable, the three constants are read-only, and `fields_paramWord` reads off
the fields of PARAM. -/
theorem identificationRegisters : Obligations.IdentificationRegisters := by
  intro s rest hc
  obtain ⟨hmin, hmax⟩ := Config.legal_mbufBytes hc
  refine ⟨step_read_stable .id rfl, fun h => ?_, step_read_stable .ksstep rfl, step_read_stable .cmd rfl, ?_⟩
  · obtain ⟨hrounds, hblock, hcap⟩ := fields_paramWord (c := s.cfg) (by omega)
    refine ⟨paramWord s.cfg, step_read_stable .param rfl h, hrounds, hblock, hcap, hmin, hmax, fun hk => ?_⟩
    rw [paramWord, hk]
    decide
  · intro off wdata hoff h
    simp only [List.mem_cons, List.not_mem_nil, or_false] at hoff
    rcases hoff with rfl | rfl | rfl
    · exact step_write_readOnly .id rfl h
    · exact step_write_readOnly .param rfl h
    · exact step_write_readOnly .ksstep rfl h

/-! ### A write that is dropped (R26) -/

theorem State.unlessBusy_busy (hb : s.busy = true) (t : State) : s.unlessBusy t = s.dropWrite := by
  simp [State.unlessBusy, hb]

/-- While BUSY = 1 a write to a writable register is dropped, but for STATUS and a soft reset. -/
theorem State.writeReg_busy (hb : s.busy = true) {r : Reg} {wdata : Word} (hro : r.readOnly = false)
    (hst : r ≠ .status) (hrst : r = .ctrl → wdata.getLsbD 31 = false) : s.writeReg r wdata = s.dropWrite := by
  cases r with
  | ctrl => rw [State.writeReg, hrst rfl, if_neg Bool.false_ne_true, State.unlessBusy_busy hb]
  | status => exact absurd rfl hst
  | cmd | keyin | mlen | din0 | din1 => exact State.unlessBusy_busy hb _
  | id | param | ksstep | dout0 | dout1 | frameinfo | sk => cases hro

/-- A length above MBUF_BYTES is dropped, whatever BUSY is (R26 c). -/
theorem State.writeReg_mlen_tooLong {wdata : Word} (h : s.cfg.mbufBytes < wdata.toNat) :
    s.writeReg .mlen wdata = s.dropWrite := by
  simp [State.writeReg, State.unlessBusy, Nat.not_le.2 h]

/-- A step that drops a register write answers OK and sets only WERR. -/
theorem step_write_dropped (r : Reg) {wdata : Word} (hro : r.readOnly = false)
    (hd : State.writeReg { s with inputs := rest } r wdata = State.dropWrite { s with inputs := rest })
    (h : s.inputs = .write (s.cfg.base + r.offset) .word wdata :: rest) :
    step s = .next { s with werr := true, inputs := rest, replies := .write .ok :: s.replies } := by
  rw [step_write_reg r h, hro, hd]
  rfl

/-- While BUSY = 1 a write to CTRL (bit 31 clear), CMD, KEYIN, MLEN, DIN0 or DIN1 is dropped (R26 a). -/
theorem step_write_reg_busy (r : Reg) {wdata : Word} (hb : s.busy = true) (hro : r.readOnly = false)
    (hst : r ≠ .status) (hrst : r = .ctrl → wdata.getLsbD 31 = false)
    (h : s.inputs = .write (s.cfg.base + r.offset) .word wdata :: rest) :
    step s = .next { s with werr := true, inputs := rest, replies := .write .ok :: s.replies } :=
  step_write_dropped r hro (State.writeReg_busy (s := { s with inputs := rest }) hb hro hst hrst) h

/-- While BUSY = 1 a legal write to MBUF is dropped (R26 b). -/
theorem step_write_mbuf_busy (hc : s.cfg.legal = true) (hb : s.busy = true) {a : Nat} (ha : a < s.cfg.mbufBytes)
    {size : Width} (hsize : size = .byte ∨ (size = .word ∧ a % 4 = 0)) {wdata : Word}
    (h : s.inputs = .write (s.cfg.base + (mbufOffset + a)) size wdata :: rest) :
    step s = .next { s with werr := true, inputs := rest, replies := .write .ok :: s.replies } := by
  have hb' : State.busy { s with inputs := rest } = true := hb
  rw [step_write_at (mbuf_lt_window hc ha) h]
  rcases hsize with rfl | ⟨rfl, h4⟩
  · rw [State.busWrite, placeAt_mbufByte ha]
    simp only [State.unlessBusy_busy hb']
    rfl
  · rw [State.busWrite, placeAt_mbufWord ha h4]
    simp only [State.unlessBusy_busy hb']
    rfl

/-! ### What clears WERR (R26) -/

/-- No command changes WERR (R193). -/
theorem exec_werr {i : Instr} (h : exec i s = .next t) : t.werr = s.werr := by
  rcases exec_cases h with ⟨_, rfl⟩ | ⟨-, rfl⟩ | ⟨-, _, _, rfl⟩ | ⟨-, -, rfl⟩ | ⟨-, _, rfl⟩ | ⟨-, rfl⟩ | ⟨-, -, _, rfl⟩ <;>
    rfl

/-- Neither does the engine's turn. -/
theorem State.engineTurn_werr (h : s.engineTurn = .next t) : t.werr = s.werr := by
  rcases State.engineTurn_cases h with ⟨-, e⟩ | ⟨_, _, -, -, e⟩ | ⟨_, _, -, -, e⟩
  · rw [Host.Outcome.next.inj e]
  · exact exec_werr e.symm
  · rw [Host.Outcome.next.inj e, State.finish_werr]

/-- A write that clears WERR is a soft reset, or writes 1 to bit 3 of STATUS. -/
theorem write_step_clears_werr {addr : Nat} {size : Width} {d : Word} (he : s.inputs = .write addr size d :: rest)
    (h : step s = .next t) (hs : s.werr = true) (ht : t.werr = false) :
    (addr = s.cfg.base + Reg.ctrl.offset ∧ size = .word ∧ d.getLsbD 31 = true) ∨
      (addr = s.cfg.base + Reg.status.offset ∧ size = .word ∧ d.getLsbD 3 = true) := by
  have falls : t.werr ≠ s.werr := by simp [hs, ht]
  rcases write_step_cases he h with rfl | ⟨off, rfl, -, u, s', rfl, rfl | ⟨rfl, hu⟩⟩
  · exact absurd rfl falls
  · exact absurd rfl falls
  · rcases hu with rfl | ⟨rfl, hw, hd, -⟩ | ⟨rfl, hw, rfl⟩ | ⟨-, hu⟩
    · cases ht
    · exact .inl ⟨rfl, hw, hd⟩
    · exact .inr ⟨rfl, hw, by simpa [hs] using ht⟩
    · rcases hu with rfl | rfl | rfl | rfl | rfl | ⟨-, -, -, rfl⟩ | ⟨_, -, rfl⟩ | ⟨_, -, -, rfl⟩ <;>
        exact absurd rfl falls

/-- Settles O25: each dropped write is `State.dropWrite`; of a step's events only a reset and the writes of
`write_step_clears_werr` can clear WERR. -/
theorem droppedWritesSetOnlyWerr : Obligations.DroppedWritesSetOnlyWerr := by
  refine ⟨fun s off size wdata rest hc hdrop h => ?_, fun s t h hs ht => ?_⟩
  · rcases hdrop with ⟨rfl, hb, rfl, h31⟩ | ⟨rfl, hb, hoff⟩ | ⟨hb, a, ha, rfl, hsize⟩ | ⟨rfl, rfl, hlong⟩
    · exact step_write_reg_busy .ctrl hb rfl nofun (fun _ => h31) h
    · simp only [List.mem_cons, List.not_mem_nil, or_false] at hoff
      rcases hoff with rfl | rfl | rfl | rfl | rfl
      · exact step_write_reg_busy .cmd hb rfl nofun nofun h
      · exact step_write_reg_busy .keyin hb rfl nofun nofun h
      · exact step_write_reg_busy .mlen hb rfl nofun nofun h
      · exact step_write_reg_busy .din0 hb rfl nofun nofun h
      · exact step_write_reg_busy .din1 hb rfl nofun nofun h
    · exact step_write_mbuf_busy hc hb ha hsize h
    · exact step_write_dropped .mlen rfl (State.writeReg_mlen_tooLong hlong) h
  · have falls : t.werr ≠ s.werr := by simp [hs, ht]
    rcases step_cases h with ⟨-, ht'⟩ | ⟨e, rest, he, ht'⟩
    · exact absurd (State.engineTurn_werr ht') falls
    · cases e with
      | read addr size =>
        obtain ⟨dr, reps, rfl, -⟩ := read_step_frame he h
        exact absurd rfl falls
      | write addr size d =>
        rcases write_step_clears_werr he h hs ht with ⟨rfl, rfl, hd⟩ | ⟨rfl, rfl, hd⟩
        · exact .inr (.inl ⟨d, rest, he, hd⟩)
        · exact .inr (.inr ⟨d, rest, he, hd⟩)
      | poll =>
        obtain ⟨dr, reps, ins, rfl⟩ := poll_step_frame he h
        exact absurd rfl falls
      | engine => exact absurd (State.engineTurn_werr (s := { s with inputs := rest }) ht') falls
      | rst => exact .inl ⟨rest, he⟩

end Sys2Proof.Machine
end

section
/-! SUPPORT. Bus errors (R68, R209) and the lanes of MBUF (R64, R65): the proofs of O23, O28 and O29. -/

namespace Sys2Proof.Machine

variable {s : State} {rest : List Event}

/-! ### Accesses that address no place (R62, R63, R67) -/

/-- No register stands at the reserved offsets 0x034 to 0x03F (R20, R35). -/
theorem Reg.offset_not_reserved (r : Reg) : r.offset < 0x034 ∨ 0x040 ≤ r.offset := by
  cases r with
  | sk i => exact .inr (Nat.le_add_right ..)
  | _ => decide

/-- A reserved offset, a register access that is not 4 aligned bytes, an MBUF access of 2 bytes or of 4 unaligned bytes:
each addresses no place. -/
theorem placeAt_eq_none {c : Config} {off : Nat} {size : Width}
    (h : (0x034 ≤ off ∧ off < 0x040) ∨ (0x080 ≤ off ∧ off < 0x1000) ∨ 0x1000 + c.mbufBytes ≤ off ∨
      (off < 0x080 ∧ (size ≠ .word ∨ off % 4 ≠ 0)) ∨
      (0x1000 ≤ off ∧ (size = .half ∨ (size = .word ∧ (off - 0x1000) % 4 ≠ 0)))) :
    placeAt c off size = none := by
  refine Option.eq_none_iff_forall_ne_some.2 fun p hp => ?_
  rcases placeAt_cases hp with ⟨r, -, rfl, rfl⟩ | ⟨a, -, rfl, ha, rfl⟩ | ⟨a, -, rfl, ha, h4, rfl⟩
  · have := r.offset_lt
    have := r.offset_mod
    have := r.offset_not_reserved
    simp only [ne_eq, not_true, false_or, reduceCtorEq, true_and] at h
    omega
  · simp only [mbufOffset, reduceCtorEq, false_and, or_false, and_false] at h
    omega
  · simp only [mbufOffset, ne_eq, not_true, reduceCtorEq, false_or, true_and] at h
    omega

/-- A read that addresses no place answers ERROR with rdata 0 and changes no FCC state (R68). -/
theorem step_read_no_place {off : Nat} {size : Width} (ho : off < 0x20000) (hp : placeAt s.cfg off size = none)
    (h : s.inputs = .read (s.cfg.base + off) size :: rest) :
    step s = .next { s with inputs := rest, replies := .read .error 0#32 :: s.replies } := by
  rw [step_read_at ho h, State.busRead, hp]
  rfl

/-- A write that addresses no place answers ERROR and changes no FCC state (R68). -/
theorem step_write_no_place {off : Nat} {size : Width} {wdata : Word} (ho : off < 0x20000)
    (hp : placeAt s.cfg off size = none) (h : s.inputs = .write (s.cfg.base + off) size wdata :: rest) :
    step s = .next { s with inputs := rest, replies := .write .error :: s.replies } := by
  rw [step_write_at ho h, State.busWrite, hp]
  rfl

/-- A write of any size to a read-only register is a bus error: 4 bytes by R67a, fewer by R62. -/
theorem step_write_readOnly_anySize (r : Reg) (hr : r.readOnly = true) {size : Width} {wdata : Word}
    (h : s.inputs = .write (s.cfg.base + r.offset) size wdata :: rest) :
    step s = .next { s with inputs := rest, replies := .write .error :: s.replies } := by
  have hlt := r.offset_lt
  by_cases hw : size = .word
  · subst hw
    exact step_write_readOnly r hr h
  · exact step_write_no_place (by omega) (placeAt_eq_none (.inr (.inr (.inr (.inl ⟨hlt, .inl hw⟩))))) h

/-- Settles O23: the illegal forms address no place, and every offset of the last clause is a read-only register's. -/
theorem illegalAccessesAreBusErrors : Obligations.IllegalAccessesAreBusErrors := by
  intro s off size rest ho
  refine ⟨fun hill => ?_, fun hoff wdata h => ?_⟩
  · have hp : placeAt s.cfg off size = none := placeAt_eq_none hill
    exact ⟨step_read_no_place ho hp, fun _ => step_write_no_place ho hp⟩
  · simp only [List.mem_cons, List.not_mem_nil, or_false] at hoff
    rcases hoff with (rfl | rfl | rfl | rfl | rfl | rfl) | ⟨i, rfl⟩
    · exact step_write_readOnly_anySize .id rfl h
    · exact step_write_readOnly_anySize .param rfl h
    · exact step_write_readOnly_anySize .ksstep rfl h
    · exact step_write_readOnly_anySize .dout0 rfl h
    · exact step_write_readOnly_anySize .dout1 rfl h
    · exact step_write_readOnly_anySize .frameinfo rfl h
    · exact step_write_readOnly_anySize (.sk i) rfl h

/-! ### MBUF while BUSY = 0 (R64, R65) -/

/-- While BUSY = 0 a read answers OK with the value of the place it addresses and changes nothing. -/
theorem step_read_idle {off : Nat} {size : Width} {p : Place} (ho : off < 0x20000) (hb : s.busy = false)
    (hp : placeAt s.cfg off size = some p) (h : s.inputs = .read (s.cfg.base + off) size :: rest) :
    step s = .next { s with inputs := rest, replies := .read .ok (s.readPlace p) :: s.replies } := by
  have hb' : State.busy { s with inputs := rest } = false := hb
  rw [step_read_at ho h, State.busRead, hp]
  simp only [hb', Bool.false_and, Bool.false_eq_true, if_false]
  cases p <;> rfl

theorem State.unlessBusy_idle (hb : s.busy = false) (t : State) : s.unlessBusy t = t := by
  simp [State.unlessBusy, hb]

/-- While BUSY = 0 a 1-byte write to MBUF stores wdata[7:0] and changes nothing else. -/
theorem step_write_mbufByte_idle (hc : s.cfg.legal = true) (hb : s.busy = false) {a : Nat} (ha : a < s.cfg.mbufBytes)
    {wdata : Word} (h : s.inputs = .write (s.cfg.base + (mbufOffset + a)) .byte wdata :: rest) :
    step s = .next { s with
      mbuf := Memory.set s.mbuf a (wdata.extractLsb' 0 8), inputs := rest, replies := .write .ok :: s.replies } := by
  have hb' : State.busy { s with inputs := rest } = false := hb
  rw [step_write_at (mbuf_lt_window hc ha) h, State.busWrite, placeAt_mbufByte ha]
  simp only [State.unlessBusy_idle hb']
  rfl

/-- While BUSY = 0 an aligned 4-byte write to MBUF stores the word and changes nothing else. -/
theorem step_write_mbufWord_idle (hc : s.cfg.legal = true) (hb : s.busy = false) {a : Nat} (ha : a < s.cfg.mbufBytes)
    (h4 : a % 4 = 0) {wdata : Word} (h : s.inputs = .write (s.cfg.base + (mbufOffset + a)) .word wdata :: rest) :
    step s = .next { s with
      mbuf := Memory.setWord s.mbuf a wdata, inputs := rest, replies := .write .ok :: s.replies } := by
  have hb' : State.busy { s with inputs := rest } = false := hb
  rw [step_write_at (mbuf_lt_window hc ha) h, State.busWrite, placeAt_mbufWord ha h4]
  simp only [State.unlessBusy_idle hb']
  rfl

/-- Settles O28, by the laws of one byte of MBUF. -/
theorem mbufByteLanes : Obligations.MbufByteLanes := by
  intro s a rest hc hb ha
  refine ⟨step_read_idle (mbuf_lt_window hc ha) hb (placeAt_mbufByte ha), fun wdata h => ?_⟩
  exact ⟨_, step_write_mbufByte_idle hc hb ha h, Memory.read_set_same .., fun b => Memory.read_set_other _ _ _, rfl⟩

/-- The bytes of a word of MBUF, from the most significant (R65). -/
theorem Memory.bytes_readWord (n : Nat) (m : Memory) (a : Nat) :
    (Memory.readWord n m a).extractLsb' 24 8 = Memory.read n m a ∧
      (Memory.readWord n m a).extractLsb' 16 8 = Memory.read n m (a + 1) ∧
      (Memory.readWord n m a).extractLsb' 8 8 = Memory.read n m (a + 2) ∧
      (Memory.readWord n m a).extractLsb' 0 8 = Memory.read n m (a + 3) := by
  have h : bytesBe32 (Memory.readWord n m a) = _ := bytesBe32_be32 ..
  simpa only [bytesBe32, List.cons.injEq, and_true] using h

/-- The bytes of MBUF that a word write leaves at its address, in order (R65). -/
theorem Memory.read_setWord_inside (n : Nat) (m : Memory) (a : Nat) (v : Word) :
    Memory.read n (Memory.setWord m a v) a = v.extractLsb' 24 8 ∧
      Memory.read n (Memory.setWord m a v) (a + 1) = v.extractLsb' 16 8 ∧
      Memory.read n (Memory.setWord m a v) (a + 2) = v.extractLsb' 8 8 ∧
      Memory.read n (Memory.setWord m a v) (a + 3) = v.extractLsb' 0 8 := by
  obtain ⟨h0, h1, h2, h3⟩ := Memory.bytes_readWord n (Memory.setWord m a v) a
  rw [Memory.readWord_setWord_same] at h0 h1 h2 h3
  exact ⟨h0.symm, h1.symm, h2.symm, h3.symm⟩

/-- Settles O29: both directions by the bytes of a word; a frame's halves are the words at 8f and 8f + 4. -/
theorem mbufWordLanesAreBigEndian : Obligations.MbufWordLanesAreBigEndian := by
  intro s a rest hc hb ha h4
  refine ⟨fun h => ?_, fun wdata h => ?_⟩
  · obtain ⟨h0, h1, h2, h3⟩ := Memory.bytes_readWord s.resets s.mbuf a
    refine ⟨s.readPlace (.mbufWord a), step_read_idle (mbuf_lt_window hc ha) hb (placeAt_mbufWord ha h4) h,
      h0, h1, h2, h3, fun f => ⟨?_, ?_⟩⟩ <;> rintro rfl <;> rfl
  · obtain ⟨h0, h1, h2, h3⟩ := Memory.read_setWord_inside s.resets s.mbuf a wdata
    exact ⟨_, step_write_mbufWord_idle hc hb ha h4 h, h0, h1, h2, h3,
      fun b => Memory.read_setWord_outside _ _ _, rfl⟩

end Sys2Proof.Machine
end

section
/-! SUPPORT. The words that select no command (R93, R94, R208): the proof of O3. -/

namespace Sys2Proof.Machine

/-- The accepted words by their fields (R93, R94). -/
theorem exists_decode_eq_ok_iff_fields {w : Word} :
    (∃ i, decode w = .ok i) ↔ reservedField w = 0#24 ∧ (opcodeField w).toNat ≤ 0x09 := by
  simp only [decode_eq_ok, exists_and_left, ← Option.isSome_iff_exists, opcodeMap_isSome]

/-- The accepted words by their value: an RSV that is not 0 adds at least 256. -/
theorem exists_decode_eq_ok_iff_toNat {w : Word} : (∃ i, decode w = .ok i) ↔ w.toNat ≤ 9 := by
  have hw := toNat_eq_fields w
  rw [exists_decode_eq_ok_iff_fields, BitVec.toNat_eq, BitVec.toNat_zero]
  omega

/-- A pending word that selects no command completes with BAD_COMMAND (R195). -/
theorem State.engineTurn_of_not_accepted {s : State} {w : Word} (hp : s.pend = some w)
    (hw : ¬ ∃ i, decode w = .ok i) : s.engineTurn = .next (s.finish .badCommand) := by
  rcases State.engineTurn_cases (s := s) rfl with ⟨hn, -⟩ | ⟨w', i, hp', hi, -⟩ | ⟨-, -, -, -, ho⟩
  · cases hp.symm.trans hn
  · cases hp.symm.trans hp'
    exact absurd ⟨i, hi⟩ hw
  · exact ho

/-- Settles O3: a reserved bit or a reserved opcode is what keeps a word from being accepted. -/
theorem otherWordsCompleteWithBadCommand : Obligations.OtherWordsCompleteWithBadCommand := by
  refine ⟨fun s w hp hres => State.engineTurn_of_not_accepted hp fun hacc => ?_,
    fun w => exists_decode_eq_ok_iff_toNat⟩
  obtain ⟨hrsv, hop⟩ := exists_decode_eq_ok_iff_fields.1 hacc
  rcases hres with hne | hge
  · exact hne hrsv
  · exact absurd hop (Nat.not_le_of_lt hge)

end Sys2Proof.Machine
end

section
/-! SUPPORT. The key schedule and LOADKEY (R110 to R114): the proofs of O32, O36 and O37. -/

namespace Sys2Proof.Machine

variable {s t : State} {rest : List Event}

/-! ### The schedule (R110, R112) -/

/-- Subkey `i` of a schedule as a number. -/
theorem toNat_keySchedule (step key : Word) (i : Fin 16) :
    (keySchedule step key)[i].toNat = (key.toNat + i.val * step.toNat) % 2 ^ 32 := by
  rw [Fin.getElem_fin, keySchedule_getElem, subkey_toNat]

/-- Subkey 0 is the key. -/
theorem subkey_zero (step key : Word) : subkey step key 0 = key := by simp [subkey]

/-- Each next subkey adds the step. -/
theorem subkey_succ (step key : Word) (i : Nat) : subkey step key (i + 1) = subkey step key i + step := by
  rw [subkey, subkey, BitVec.ofNat_add, BitVec.add_mul, BitVec.one_mul, BitVec.add_assoc]

/-- Subkey `i` differs from the sum exactly where the sum reaches 2^32 (R112 d). -/
theorem keySchedule_wraps_iff (step key : Word) (i : Fin 16) :
    (keySchedule step key)[i].toNat ≠ key.toNat + i.val * step.toNat ↔
      2 ^ 32 ≤ key.toNat + i.val * step.toNat := by
  rw [toNat_keySchedule, Ne, Nat.mod_eq_iff_lt (by decide), Nat.not_lt]

/-- Settles O37: the laws of a subkey, carried to the file by `keySchedule_getElem`. -/
theorem keyScheduleLaws : Obligations.KeyScheduleLaws := by
  refine ⟨toNat_keySchedule, fun step key => ?_, fun step key i h => ?_, fun i => ?_,
    keySchedule_wraps_iff 123456#32, fun i hi => ?_, ?_, ?_⟩
  · rw [keySchedule_getElem, subkey_zero]
  · rw [keySchedule_getElem, keySchedule_getElem, subkey_succ]
  · have := i.isLt
    omega
  · omega
  · rw [keySchedule_getElem]
    decide
  · rw [keySchedule_getElem]
    decide

/-! ### LOADKEY (R111, R114) -/

/-- LOADKEY's completion from any state. -/
theorem exec_loadkey (s : State) : exec .loadkey s = .next
    { s with akey := s.keyin, sk := keySchedule s.cfg.ksStep s.keyin, keyValid := true,
             errCode := .ok, done := true, pend := none } := rfl

/-- Settles O36: the file LOADKEY leaves is the schedule of KEYIN. -/
theorem loadkeySchedulesTheKey : Obligations.LoadkeySchedulesTheKey :=
  ⟨rfl, fun s => ⟨_, exec_loadkey s, rfl, toNat_keySchedule s.cfg.ksStep s.keyin, rfl⟩⟩

/-! ### What changes AKEY and SK (R113) -/

/-- AKEY and the subkey file, as one value. -/
def State.keys (s : State) : Word × Vector Word 16 := (s.akey, s.sk)

theorem State.keys_ne_iff : t.keys ≠ s.keys ↔ t.akey ≠ s.akey ∨ t.sk ≠ s.sk := by
  rw [State.keys, State.keys, Ne, Prod.mk.injEq, not_and_or]

/-- Only LOADKEY of the ten commands changes the keys. -/
theorem exec_changes_keys {i : Instr} (h : exec i s = .next t) (hk : t.keys ≠ s.keys) : i = .loadkey := by
  rcases exec_cases h with ⟨_, rfl⟩ | ⟨hi, -⟩ | ⟨-, _, _, rfl⟩ | ⟨-, -, rfl⟩ | ⟨-, _, rfl⟩ | ⟨-, rfl⟩ | ⟨-, -, _, rfl⟩
  case inr.inl => exact hi
  all_goals exact absurd rfl hk

/-- An engine's turn that changes the keys completes a pending LOADKEY. -/
theorem State.engineTurn_changes_keys (h : s.engineTurn = .next t) (hk : t.keys ≠ s.keys) :
    ∃ w, s.pend = some w ∧ decode w = .ok .loadkey := by
  rcases State.engineTurn_cases h with ⟨-, e⟩ | ⟨w, i, hp, hd, e⟩ | ⟨_, _, -, -, e⟩
  · cases e
    exact absurd rfl hk
  · exact ⟨w, hp, exec_changes_keys e.symm hk ▸ hd⟩
  · cases e
    exact absurd rfl hk

/-- A host write that changes the keys is a soft reset. -/
theorem write_step_changes_keys {addr : Nat} {size : Width} {d : Word} (he : s.inputs = .write addr size d :: rest)
    (h : step s = .next t) (hk : t.keys ≠ s.keys) :
    addr = s.cfg.base + Reg.ctrl.offset ∧ size = .word ∧ d.getLsbD 31 = true ∧
      t.keys = (0#32, Vector.replicate 16 0#32) := by
  rcases write_step_cases he h with rfl | ⟨off, rfl, -, u, s', rfl, rfl | ⟨rfl, hu⟩⟩
  · exact absurd rfl hk
  · exact absurd rfl hk
  · rcases hu with rfl | ⟨rfl, hw, hd, rfl⟩ | ⟨-, -, rfl⟩ | ⟨-, hu⟩
    · exact absurd rfl hk
    · exact ⟨rfl, hw, hd, rfl⟩
    · exact absurd rfl hk
    · rcases hu with rfl | rfl | rfl | rfl | rfl | ⟨-, -, -, rfl⟩ | ⟨_, -, rfl⟩ | ⟨_, -, -, rfl⟩ <;>
        exact absurd rfl hk

/-- The keys a reset leaves are all 0 (R50). -/
theorem State.keys_zero (h : t.keys = (0#32, Vector.replicate 16 0#32)) :
    t.akey = 0#32 ∧ ∀ i : Fin 16, t.sk[i] = 0#32 := by
  obtain ⟨hakey, hsk⟩ := Prod.mk.inj h
  exact ⟨hakey, fun i => by rw [hsk, Fin.getElem_fin, Vector.getElem_replicate]⟩

/-- Settles O32: of the events of a step only the engine's turn, a soft reset and a reset can change the keys; every
SK[i] is a read-only register. -/
theorem onlyLoadkeyChangesTheSubkeys : Obligations.OnlyLoadkeyChangesTheSubkeys := by
  refine ⟨fun s t h hne => ?_, fun s i size wdata rest h => step_write_readOnly_anySize (.sk i) rfl h⟩
  have hk : t.keys ≠ s.keys := State.keys_ne_iff.2 hne
  rcases step_cases h with ⟨he, ht⟩ | ⟨e, rest, he, ht⟩
  · obtain ⟨w, hp, hd⟩ := State.engineTurn_changes_keys ht hk
    exact .inl ⟨w, hp, hd, .inl he⟩
  · cases e with
    | read addr size =>
      obtain ⟨dr, reps, rfl, -⟩ := read_step_frame he h
      exact absurd rfl hk
    | write addr size d =>
      obtain ⟨rfl, rfl, hd, hz⟩ := write_step_changes_keys he h hk
      exact .inr ⟨.inr ⟨d, rest, he, hd⟩, State.keys_zero hz⟩
    | poll =>
      obtain ⟨dr, reps, ins, rfl⟩ := poll_step_frame he h
      exact absurd rfl hk
    | engine =>
      obtain ⟨w, hp, hd⟩ := State.engineTurn_changes_keys (s := { s with inputs := rest }) ht hk
      exact .inl ⟨w, hp, hd, .inr ⟨rest, he⟩⟩
    | rst =>
      cases ht
      exact .inr ⟨.inl ⟨rest, he⟩, State.keys_zero rfl⟩

end Sys2Proof.Machine
end

section
/-! SUPPORT. The round function F and ROUNDF (R120 to R123): the proofs of O38, O39 and O40. -/

namespace Sys2Proof.Machine

/-! ### F is OR (R120, R121) -/

/-- The two operands of F's sum share no set bit, so the sum has no carries (R121). -/
theorem xor_and_and_eq_zero (h s : Word) : (h ^^^ s) &&& (h &&& s) = 0#32 := by
  ext j hj
  rw [BitVec.getElem_and, BitVec.getElem_xor, BitVec.getElem_and, BitVec.getElem_zero]
  cases h[j] <;> cases s[j] <;> rfl

/-- F is OR bit by bit (R121). -/
theorem roundF_eq_or (h s : Word) : roundF h s = h ||| s := by
  rw [roundF, BitVec.add_eq_or_of_and_eq_zero _ _ (xor_and_and_eq_zero h s)]
  ext j hj
  rw [BitVec.getElem_or, BitVec.getElem_xor, BitVec.getElem_and, BitVec.getElem_or]
  cases h[j] <;> cases s[j] <;> rfl

/-- F as a number is the sum of R120. -/
theorem toNat_roundF (h s : Word) : (roundF h s).toNat = ((h ^^^ s).toNat + (h &&& s).toNat) % 2 ^ 32 :=
  BitVec.toNat_add _ _

/-- Settles O38: without carries the sum is the word's own number, hence below 2^32. -/
theorem roundFunctionIsOr : Obligations.RoundFunctionIsOr := by
  refine fun h s => ⟨toNat_roundF h s, roundF_eq_or h s, ?_⟩
  rw [← BitVec.toNat_add_of_and_eq_zero (xor_and_and_eq_zero h s)]
  exact BitVec.isLt _

/-! ### The laws of F (R123) -/

theorem roundF_comm (h s : Word) : roundF h s = roundF s h := by
  rw [roundF_eq_or, roundF_eq_or, BitVec.or_comm]

@[simp] theorem roundF_zero (h : Word) : roundF h 0#32 = h := by rw [roundF_eq_or, BitVec.or_zero]

@[simp] theorem zero_roundF (s : Word) : roundF 0#32 s = s := by rw [roundF_comm, roundF_zero]

@[simp] theorem roundF_self (h : Word) : roundF h h = h := by rw [roundF_eq_or, BitVec.or_self]

/-- All ones absorb (R123 e). -/
theorem roundF_allOnes (h : Word) : roundF h (BitVec.allOnes 32) = BitVec.allOnes 32 := by
  rw [roundF_eq_or, BitVec.or_allOnes]

/-- The bits of the half outside the subkey pass through (R123 f). -/
theorem roundF_and_not (h s : Word) : roundF h s &&& ~~~s = h &&& ~~~s := by
  rw [roundF_eq_or, BitVec.and_or_distrib_right, BitVec.and_not_self]
  exact BitVec.or_zero

/-- Settles O39: each law is OR's; the halves 0 and `s` both go to `s`, so F is not injective for `s` other than 0. -/
theorem roundFunctionLaws : Obligations.RoundFunctionLaws :=
  ⟨fun _ _ => BitVec.isLt _, roundF_comm, roundF_zero, roundF_self, roundF_allOnes, roundF_and_not,
    fun s hs => ⟨0#32, s, hs.symm, by rw [zero_roundF, roundF_self]⟩⟩

/-! ### ROUNDF (R122) -/

/-- ROUNDF's completion from any state. -/
theorem exec_roundf (s : State) : exec .roundf s = .next
    { s with dout0 := roundF s.din0 s.din1, dout1 := 0#32, errCode := .ok, done := true, pend := none } := rfl

/-- Settles O40: DOUT0 is F as a number. -/
theorem roundfCompletes : Obligations.RoundfCompletes :=
  ⟨rfl, fun s => ⟨_, exec_roundf s, toNat_roundF s.din0 s.din1, rfl⟩⟩

end Sys2Proof.Machine
end

section
/-! SUPPORT. The Feistel engine (R130 to R140): the proofs of O41 to O45. -/

namespace Sys2Proof.Machine

variable {s t u x : State}

/-! ### The halves round by round (R130, R132) -/

/-- `l i` and `r i` follow the encryption rounds of R130, with any function `f` in the place of F. -/
def EncRoundsFollow (f : Word → Word → Word) (sk : Fin 16 → Word) (l r : Nat → Word) : Prop :=
  ∀ i : Fin 16, l (i.val + 1) = r i.val ∧ r (i.val + 1) = l i.val ^^^ f (r i.val) (sk i)

/-- `l i` and `r i`, the halves after the round of `sk i`, follow the decryption rounds of R132. -/
def DecRoundsFollow (f : Word → Word → Word) (sk : Fin 16 → Word) (l r : Nat → Word) : Prop :=
  ∀ i : Fin 16, r i.val = l (i.val + 1) ∧ l i.val = r (i.val + 1) ^^^ f (l (i.val + 1)) (sk i)

/-- Decryption with the subkeys from SK[i] up is decryption from SK[i+1] up and then the round of SK[i]. -/
theorem decRounds_drop_reverse (ks : List Word) (h : Word × Word) (i : Nat) (hi : i < ks.length) :
    decRounds (ks.drop i).reverse h = decRound ks[i] (decRounds (ks.drop (i + 1)).reverse h) := by
  rw [List.drop_eq_getElem_cons hi, List.reverse_cons, decRounds_append]
  rfl

/-- The halves of EncryptHalves (R131). -/
theorem encryptHalves_rounds (sk : Vector Word 16) (h : Word × Word) :
    ∃ l r : Nat → Word, l 0 = h.1 ∧ r 0 = h.2 ∧ EncRoundsFollow roundF (fun i => sk[i]) l r ∧
      encryptHalves sk h = (r 16, l 16) := by
  refine ⟨fun i => (encRounds (sk.toList.take i) h).1, fun i => (encRounds (sk.toList.take i) h).2, rfl, rfl,
    fun i => Prod.ext_iff.1 (encRounds_take_succ sk.toList h i.val (by simp)), ?_⟩
  have all : sk.toList.take 16 = sk.toList := List.take_of_length_le (by simp)
  simp only [all]
  rfl

/-- The halves of DecryptHalves (R133). -/
theorem decryptHalves_rounds (sk : Vector Word 16) (h : Word × Word) :
    ∃ l r : Nat → Word, r 16 = h.1 ∧ l 16 = h.2 ∧ DecRoundsFollow roundF (fun i => sk[i]) l r ∧
      decryptHalves sk h = (l 0, r 0) := by
  have none_left : sk.toList.drop 16 = [] := List.drop_of_length_le (by simp)
  refine ⟨fun i => (decRounds (sk.toList.drop i).reverse h).2, fun i => (decRounds (sk.toList.drop i).reverse h).1,
    ?_, ?_, fun i => Prod.ext_iff.1 (decRounds_drop_reverse sk.toList h i.val (by simp)), rfl⟩ <;>
    simp only [none_left] <;> rfl

/-! ### ENCB and DECB (R136, R137) -/

/-- The completion of ENCB and DECB with a key. -/
theorem State.completed_transformDin_of_key (g : Word × Word → Word × Word) (hk : s.keyValid = true) :
    s.completed (s.transformDin g) = .next
      { s with dout0 := (g (s.din0, s.din1)).1, dout1 := (g (s.din0, s.din1)).2,
               errCode := .ok, done := true, pend := none } := by
  rw [State.transformDin, if_pos hk]
  rfl

/-- The completion of ENCB and DECB without a key. -/
theorem State.completed_transformDin_of_noKey (g : Word × Word → Word × Word) (hk : s.keyValid = false) :
    s.completed (s.transformDin g) = .next { s with errCode := .noKey, done := true, pend := none } := by
  rw [State.transformDin, if_neg (by simp [hk])]
  rfl

/-- Settles O41: the halves are those of `encryptHalves_rounds` from DIN. -/
theorem encbCompletes : Obligations.EncbCompletes := by
  refine ⟨rfl, fun s => ⟨fun hk => ?_, State.completed_transformDin_of_noKey _⟩⟩
  obtain ⟨l, r, hl, hr, hrounds, hout⟩ := encryptHalves_rounds s.sk (s.din0, s.din1)
  refine ⟨l, r, hl, hr, hrounds, (State.completed_transformDin_of_key _ hk).trans ?_⟩
  rw [hout]

/-- Settles O42: the halves are those of `decryptHalves_rounds` from DIN. -/
theorem decbCompletes : Obligations.DecbCompletes := by
  refine ⟨rfl, fun s => ⟨fun hk => ?_, State.completed_transformDin_of_noKey _⟩⟩
  obtain ⟨l, r, hr, hl, hrounds, hout⟩ := decryptHalves_rounds s.sk (s.din0, s.din1)
  refine ⟨l, r, hr, hl, hrounds, (State.completed_transformDin_of_key _ hk).trans ?_⟩
  rw [hout]

/-! ### Decryption inverts encryption (R138) -/

/-- Whatever `f` is, each decryption round takes its XOR off again; so halves that agree after the last round agree before
the first. -/
theorem decRounds_undo_encRounds {f : Word → Word → Word} {sk : Fin 16 → Word} {l r l' r' : Nat → Word}
    (henc : EncRoundsFollow f sk l r) (hdec : DecRoundsFollow f sk l' r') (hr : r' 16 = r 16) (hl : l' 16 = l 16) :
    l' 0 = l 0 ∧ r' 0 = r 0 := by
  refine Nat.decreasingInduction (n := 16) (motive := fun i _ => l' i = l i ∧ r' i = r i) (fun i hi ih => ?_) ⟨hl, hr⟩
    (Nat.zero_le 16)
  obtain ⟨ihl, ihr⟩ := ih
  obtain ⟨hl1, hr1⟩ := henc ⟨i, hi⟩
  obtain ⟨hr0, hl0⟩ := hdec ⟨i, hi⟩
  rw [ihl, hl1] at hr0
  rw [ihl, ihr, hl1, hr1, BitVec.xor_assoc, BitVec.xor_self, BitVec.xor_zero] at hl0
  exact ⟨hl0, hr0⟩

theorem decryptHalves_encryptHalves (sk : Vector Word 16) (h : Word × Word) :
    decryptHalves sk (encryptHalves sk h) = h := by
  obtain ⟨l, r, hl, hr, henc, hout⟩ := encryptHalves_rounds sk h
  obtain ⟨l', r', hr', hl', hdec, hout'⟩ := decryptHalves_rounds sk (encryptHalves sk h)
  rw [hout] at hr' hl'
  obtain ⟨hl0, hr0⟩ := decRounds_undo_encRounds henc hdec hr' hl'
  rw [hout']
  exact Prod.ext (hl0.trans hl) (hr0.trans hr)

/-- Every block of 8 bytes is the bytes of two halves (R134). -/
theorem exists_halves_of_block {b : List Byte} (hb : b.length = 8) :
    ∃ x y : Word, b = bytesBe32 x ++ bytesBe32 y := by
  match b, hb with
  | [b0, b1, b2, b3, b4, b5, b6, b7], _ =>
    exact ⟨be32 b0 b1 b2 b3, be32 b4 b5 b6 b7, by rw [bytesBe32_be32, bytesBe32_be32]; rfl⟩

/-- Settles O43: on halves by `decRounds_undo_encRounds`, and on the two halves of a block. -/
theorem decryptInvertsEncrypt : Obligations.DecryptInvertsEncrypt := by
  refine ⟨decryptHalves_encryptHalves, fun sk b hb => ?_, fun f sk l r l' r' => decRounds_undo_encRounds⟩
  obtain ⟨x, y, rfl⟩ := exists_halves_of_block hb
  refine ⟨_, onBlock_bytes (encryptHalves sk) x y, by simp, ?_⟩
  rw [decryptBlock, onBlock_bytes, Prod.mk.eta, decryptHalves_encryptHalves]

/-! ### The block size (R135) -/

/-- The engine refuses a block of another length than 8. -/
theorem onBlock_of_length_ne {b : List Byte} (g : Word × Word → Word × Word) (hb : b.length ≠ 8) :
    onBlock g b = .error .invalidBlockSize := by
  unfold onBlock
  split
  · exact absurd rfl hb
  · rfl

/-- The engine takes every block of length 8. -/
theorem onBlock_of_length_eq {b : List Byte} (g : Word × Word → Word × Word) (hb : b.length = 8) :
    ∃ c, onBlock g b = .ok c := by
  obtain ⟨x, y, rfl⟩ := exists_halves_of_block hb
  exact ⟨_, onBlock_bytes g x y⟩

/-- Every command completes (R10). -/
theorem exec_answers (i : Instr) (s : State) : ∃ t, exec i s = .next t := by
  cases i <;> exact ⟨_, rfl⟩

/-- A completion with a code that is not OK is one whose rule raised that code. -/
theorem State.eq_error_of_completed {r : Except ErrCode State} {c : ErrCode} (h : s.completed r = .next t)
    (ht : t.errCode = c) (hc : c ≠ .ok) : r = .error c := by
  rcases State.completed_cases h with ⟨u, -, rfl⟩ | ⟨c', rfl, rfl⟩
  · exact absurd ht.symm hc
  · exact congrArg _ ht

/-- ENCB and DECB raise NO_KEY only (R136, R137). -/
theorem State.transformDin_eq_error {g : Word × Word → Word × Word} {c : ErrCode} (h : s.transformDin g = .error c) :
    c = .noKey := by
  rcases State.transformDin_cases s g with ⟨-, e⟩ | ⟨-, e⟩ <;> cases e.symm.trans h
  rfl

/-- ENCBUF and DECBUF raise INVALID_BLOCK_SIZE only for a short last frame (R178). -/
theorem State.mlen_of_transformBuffer_eq_error {g : Word × Word → Word × Word}
    (h : s.transformBuffer g = .error .invalidBlockSize) : s.mlen % 8 ≠ 0 := by
  rcases State.transformBuffer_cases s g with ⟨-, -, e⟩ | ⟨c, hc, e⟩ <;> cases e.symm.trans h
  intro hm
  simp [State.bufferError, hm] at hc

/-- Only ENCBUF and DECBUF can complete with INVALID_BLOCK_SIZE. -/
theorem exec_errCode_eq_invalidBlockSize {i : Instr} (h : exec i s = .next t) (ht : t.errCode = .invalidBlockSize) :
    (i = .encbuf ∨ i = .decbuf) ∧ s.mlen % 8 ≠ 0 := by
  cases i with
  | nop | loadkey | roundf =>
    cases State.eq_error_of_completed h ht nofun
  | encb | decb =>
    cases State.transformDin_eq_error (State.eq_error_of_completed h ht nofun)
  | pad | split =>
    have raised := State.eq_error_of_completed h ht nofun
    split at raised <;> cases raised
  | unpad =>
    have raised := State.eq_error_of_completed h ht nofun
    split at raised
    · cases raised
    · dsimp only at raised
      split at raised <;> cases raised
  | encbuf =>
    exact ⟨.inl rfl, State.mlen_of_transformBuffer_eq_error (State.eq_error_of_completed h ht nofun)⟩
  | decbuf =>
    exact ⟨.inr rfl, State.mlen_of_transformBuffer_eq_error (State.eq_error_of_completed h ht nofun)⟩

/-- Settles O44: the engine matches on a block of 8 bytes; of the commands only ENCBUF and DECBUF raise the code. -/
theorem blocksHaveEightBytes : Obligations.BlocksHaveEightBytes := by
  refine ⟨fun sk b hb => ⟨onBlock_of_length_ne _ hb, onBlock_of_length_ne _ hb⟩,
    fun sk b hb => ⟨onBlock_of_length_eq _ hb, onBlock_of_length_eq _ hb⟩, fun s i => ?_⟩
  obtain ⟨t, h⟩ := exec_answers i s
  exact ⟨t, h, exec_errCode_eq_invalidBlockSize h⟩

/-! ### No chaining (R140) -/

variable {f k : Nat}

/-- With a key and whole frames, ENCBUF and DECBUF give for each frame the transform of that frame (R176). -/
theorem State.completed_transformBuffer_frame (g : Word × Word → Word × Word) (hk : s.keyValid = true)
    (hm : s.mlen % 8 = 0) (hf : f < s.mlen / 8) :
    ∃ t, s.completed (s.transformBuffer g) = .next t ∧ t.frameHalves f = g (s.frameHalves f) := by
  rcases State.transformBuffer_cases s g with ⟨-, -, e⟩ | ⟨c, hc, -⟩
  · rw [e, State.completed_ok]
    exact ⟨_, rfl, Memory.readHalves_mapFrames_inside s.resets g 0 _ s.mbuf (by omega)⟩
  · rw [State.bufferError_eq_none.2 ⟨hk, hm⟩] at hc
    cases hc

/-- Equal frames of two messages have equal results. -/
theorem State.transformBuffer_frames_agree (g : Word × Word → Word × Word) (hs : s.keyValid = true)
    (hu : u.keyValid = true) (hsm : s.mlen % 8 = 0) (hum : u.mlen % 8 = 0) (hf : f < s.mlen / 8) (hk : k < u.mlen / 8)
    (heq : s.frameHalves f = u.frameHalves k) :
    ∃ t v, s.completed (s.transformBuffer g) = .next t ∧ u.completed (u.transformBuffer g) = .next v ∧
      t.frameHalves f = v.frameHalves k := by
  obtain ⟨t, ht, hft⟩ := State.completed_transformBuffer_frame g hs hsm hf
  obtain ⟨v, hv, hkv⟩ := State.completed_transformBuffer_frame g hu hum hk
  exact ⟨t, v, ht, hv, by rw [hft, hkv, heq]⟩

/-- The block of DIN has the result of the frame it equals. -/
theorem State.transformDin_agrees_with_frame (g : Word × Word → Word × Word) (hs : s.keyValid = true)
    (hsm : s.mlen % 8 = 0) (hf : f < s.mlen / 8) (hx : x.keyValid = true) (heq : (x.din0, x.din1) = s.frameHalves f) :
    ∃ t y, s.completed (s.transformBuffer g) = .next t ∧ x.completed (x.transformDin g) = .next y ∧
      (y.dout0, y.dout1) = t.frameHalves f := by
  obtain ⟨t, ht, hft⟩ := State.completed_transformBuffer_frame g hs hsm hf
  exact ⟨t, _, ht, State.completed_transformDin_of_key g hx, by rw [hft, heq]⟩

/-- Settles O45: each result is the engine's function of the subkeys, applied to the block alone. -/
theorem blocksAreIndependent : Obligations.BlocksAreIndependent := by
  intro s u f k hsk hs hu hsm hum hf hk heq
  simp only [exec, execEncbuf, execDecbuf, execEncb, execDecb, ← hsk]
  refine ⟨State.transformBuffer_frames_agree _ hs hu hsm hum hf hk heq,
    State.transformBuffer_frames_agree _ hs hu hsm hum hf hk heq, fun x hxsk hx hxeq => ?_⟩
  rw [hxsk]
  exact ⟨State.transformDin_agrees_with_frame _ hs hsm hf hx hxeq,
    State.transformDin_agrees_with_frame _ hs hsm hf hx hxeq⟩

end Sys2Proof.Machine
end

section
/-! SUPPORT. The padder, PAD and UNPAD (R150 to R158): the proofs of O46, O47, O49 and O50. -/

namespace Sys2Proof.Machine

variable {s : State}

/-! ### The padding of a byte sequence (R150, R153, R154) -/

/-- The padding count fits the byte that states it. -/
theorem toNat_ofNat_padCount (n : Nat) : (BitVec.ofNat 8 (padCount n)).toNat = padCount n := by
  have := padCount_bounds n
  exact Nat.mod_eq_of_lt (by omega)

/-- A length below a capacity of whole frames stays within it when padded (R152). -/
theorem add_padCount_le {n cap : Nat} (hcap : cap % 8 = 0) (h : n < cap) : n + padCount n ≤ cap := by
  unfold padCount
  omega

/-- Unpad removes what Pad appended, for either UNPAD_K0: the last byte is never 0. -/
theorem unpadCount_padCount (k0 : UnpadK0) (n : Nat) :
    unpadCount k0 (BitVec.ofNat 8 (padCount n)) (n + padCount n) = padCount n := by
  have hne : BitVec.ofNat 8 (padCount n) ≠ 0#8 := by
    intro h
    have hzero : padCount n = 0 := by rw [← toNat_ofNat_padCount n, h, BitVec.toNat_zero]
    have := padCount_bounds n
    omega
  rw [unpadCount, if_neg (fun h => hne h.1), toNat_ofNat_padCount, Nat.min_eq_left (Nat.le_add_left ..)]

theorem getElem?_padMessage (m : List Byte) {i : Nat} (h : m.length ≤ i) (hi : i < m.length + padCount m.length) :
    (padMessage m)[i]? = some (BitVec.ofNat 8 (padCount m.length)) := by
  rw [padMessage, padBytes, List.getElem?_append_right h, List.getElem?_replicate, if_pos (by omega)]

/-- Unpad of Pad(m) is m (R157 c). -/
theorem unpadMessage_padMessage (k0 : UnpadK0) (m : List Byte) : unpadMessage k0 (padMessage m) = m := by
  rw [unpadMessage, getLast?_padMessage]
  dsimp only
  rw [length_padMessage, unpadCount_padCount, Nat.add_sub_cancel, padMessage, List.take_left]

/-- Pad(m) passes the strict check (R157 d). -/
theorem strictValid_padMessage (m : List Byte) : strictValid (padMessage m) = true := by
  obtain ⟨hmin, hmax⟩ := padCount_bounds m.length
  rw [strictValid, getLast?_padMessage]
  simp only [toNat_ofNat_padCount, length_padMessage, Bool.and_eq_true, decide_eq_true_eq, List.all_eq_true,
    List.mem_range, beq_iff_eq]
  exact ⟨⟨⟨hmin, hmax⟩, Nat.le_add_left ..⟩, fun j hj => getElem?_padMessage m (by omega) (by omega)⟩

/-! ### PAD (R151, R152) -/

/-- The state with the padding after its message: what PAD applies. -/
def State.padded (s : State) : State :=
  { s with mbuf := Memory.setMany s.mbuf s.mlen (padBytes s.mlen), mlen := s.mlen + padCount s.mlen }

theorem exec_pad_of_full (h : s.mlen = s.cfg.mbufBytes) : exec .pad s = .next (s.finish .capacity) := by
  rw [exec, execPad, if_pos h, State.completed_error]

theorem exec_pad_of_room (h : s.mlen ≠ s.cfg.mbufBytes) : exec .pad s = .next (s.padded.finish .ok) := by
  rw [exec, execPad, if_neg h, State.completed_ok, State.padded]

/-- Each of the padding bytes is the padding count. -/
theorem State.readByte_padded_inside {j : Nat} (h : j < padCount s.mlen) :
    s.padded.readByte (s.mlen + j) = BitVec.ofNat 8 (padCount s.mlen) := by
  have hj : j < (padBytes s.mlen).length := by rwa [length_padBytes]
  refine (Memory.read_setMany_inside s.resets s.mbuf s.mlen hj).trans ?_
  exact List.getElem_replicate ..

/-- PAD leaves every other byte of MBUF. -/
theorem State.readByte_padded_outside {a : Nat} (h : a < s.mlen ∨ s.mlen + padCount s.mlen ≤ a) :
    s.padded.readByte a = s.readByte a :=
  Memory.read_setMany_outside s.resets s.mbuf (by rwa [length_padBytes])

/-- Settles O46: below the capacity PAD's state is `State.padded`. -/
theorem padCompletes : Obligations.PadCompletes :=
  ⟨rfl, fun _ => ⟨exec_pad_of_full, fun h => ⟨_, exec_pad_of_room h, rfl, fun _ => State.readByte_padded_inside,
    fun _ => State.readByte_padded_outside, rfl⟩⟩⟩

/-- MBUF_BYTES is a whole number of frames (R6). -/
theorem Config.legal_mbufBytes_mod {c : Config} (hc : c.legal = true) : c.mbufBytes % 8 = 0 := by
  simp only [Config.legal, Bool.and_eq_true, beq_iff_eq] at hc
  obtain ⟨⟨⟨-, hmod⟩, -⟩, -⟩ := hc
  exact hmod

/-- Settles O47: PAD fails only at the capacity, and MBUF_BYTES is a whole number of frames. -/
theorem padFitsBelowCapacity : Obligations.PadFitsBelowCapacity := by
  intro s hc hle
  by_cases hfull : s.mlen = s.cfg.mbufBytes
  · exact ⟨_, exec_pad_of_full hfull, iff_of_false nofun (Nat.not_lt.2 hfull.ge), nofun⟩
  · have hlt : s.mlen < s.cfg.mbufBytes := Nat.lt_of_le_of_ne hle hfull
    have hfits := add_padCount_le (Config.legal_mbufBytes_mod hc) hlt
    exact ⟨_, exec_pad_of_room hfull, iff_of_true rfl hlt, fun _ => ⟨hfits, hfits⟩⟩

/-! ### UNPAD (R154 to R156) -/

/-- The message ends with valid padding for the last byte `k` (R154). -/
def State.PaddingValid (s : State) (k : Byte) : Prop :=
  1 ≤ k.toNat ∧ k.toNat ≤ 8 ∧ k.toNat ≤ s.mlen ∧ ∀ j, 1 ≤ j → j ≤ k.toNat → s.readByte (s.mlen - j) = k

/-- The check of R155 fails exactly the padding that is not valid. -/
theorem State.badPadding_eq_false {k : Byte} : s.badPadding k = false ↔ s.PaddingValid k := by
  simp only [State.badPadding, State.PaddingValid, Bool.or_eq_false_iff, decide_eq_false_iff_not, Nat.not_lt,
    List.any_eq_false, List.mem_range, bne_iff_ne, ne_eq, Decidable.not_not, and_assoc]
  refine and_congr_right' (and_congr_right' (and_congr_right' ⟨fun h j hj hjk => ?_, fun h j hj => ?_⟩))
  · have := h (j - 1) (by omega)
    rwa [Nat.sub_add_cancel hj] at this
  · exact h (j + 1) (by omega) hj

theorem exec_unpad_of_empty (h : s.mlen = 0) : exec .unpad s = .next (s.finish .emptyInput) := by
  rw [exec, execUnpad, if_pos h, State.completed_error]

theorem exec_unpad_of_invalid (h : s.mlen ≠ 0) (hs : s.strictPad = true)
    (hk : ¬ s.PaddingValid (s.readByte (s.mlen - 1))) : exec .unpad s = .next (s.finish .invalidPadding) := by
  rw [← State.badPadding_eq_false, Bool.not_eq_false] at hk
  rw [exec, execUnpad, if_neg h]
  simp only [hs, hk, Bool.and_self, if_true, State.completed_error]

/-- UNPAD succeeds when it is not strict and where the padding is valid. -/
theorem exec_unpad_of_valid (h : s.mlen ≠ 0)
    (hk : s.strictPad = false ∨ s.PaddingValid (s.readByte (s.mlen - 1))) :
    exec .unpad s = .next
      (State.finish { s with mlen := s.mlen - unpadCount s.cfg.unpadK0 (s.readByte (s.mlen - 1)) s.mlen } .ok) := by
  have pass : (s.strictPad && s.badPadding (s.readByte (s.mlen - 1))) = false :=
    Bool.and_eq_false_iff.2 (hk.imp_right State.badPadding_eq_false.2)
  rw [exec, execUnpad, if_neg h]
  simp only [pass, Bool.false_eq_true, if_false, State.completed_ok]

/-- On a KEEP part Unpad takes min(k, len) off, for every last byte k (R153). -/
theorem unpadCount_keep (k : Byte) (len : Nat) : unpadCount .keep k len = min k.toNat len := by
  simp [unpadCount]

/-- Settles O50: the three outcomes of UNPAD, each with its own lemma. -/
theorem unpadCompletes : Obligations.UnpadCompletes := by
  refine ⟨rfl, fun s hkeep => ⟨exec_unpad_of_empty, fun h k hk => ?_⟩⟩
  subst hk
  refine ⟨exec_unpad_of_invalid h, fun hv => (exec_unpad_of_valid h hv).trans ?_⟩
  rw [hkeep, unpadCount_keep]
  rfl

/-! ### PAD then UNPAD (R157) -/

/-- The padding that PAD appends is valid. -/
theorem State.paddingValid_padded (s : State) : s.padded.PaddingValid (BitVec.ofNat 8 (padCount s.mlen)) := by
  obtain ⟨hmin, hmax⟩ := padCount_bounds s.mlen
  rw [State.PaddingValid, toNat_ofNat_padCount]
  refine ⟨hmin, hmax, Nat.le_add_left .., fun j hj hjn => ?_⟩
  rw [State.padded, Nat.add_sub_assoc hjn]
  exact State.readByte_padded_inside (by omega)

/-- The last byte of that padding is its count. -/
theorem State.lastByte_padded (s : State) :
    s.padded.readByte (s.padded.mlen - 1) = BitVec.ofNat 8 (padCount s.mlen) := by
  obtain ⟨hmin, -, -, hbytes⟩ := s.paddingValid_padded
  exact hbytes 1 le_rfl hmin

/-- UNPAD after PAD takes the padding off again and leaves it in MBUF, in either mode and for either UNPAD_K0. -/
theorem exec_unpad_padded (s : State) :
    exec .unpad (s.padded.finish .ok) = .next (State.finish { s.padded with mlen := s.mlen } .ok) := by
  have hlast : (s.padded.finish .ok).readByte ((s.padded.finish .ok).mlen - 1) = BitVec.ofNat 8 (padCount s.mlen) :=
    s.lastByte_padded
  have hvalid : (s.padded.finish .ok).PaddingValid (BitVec.ofNat 8 (padCount s.mlen)) := s.paddingValid_padded
  have hlen : (s.padded.finish .ok).mlen = s.mlen + padCount s.mlen := rfl
  have hne : (s.padded.finish .ok).mlen ≠ 0 := by
    have := padCount_bounds s.mlen
    omega
  rw [exec_unpad_of_valid hne (.inr (hlast.symm ▸ hvalid)), hlast, hlen, unpadCount_padCount, Nat.add_sub_cancel]
  rfl

/-- Settles O49: the laws of the sequence one by one, and `exec_unpad_padded`. -/
theorem paddingLaws : Obligations.PaddingLaws := by
  refine ⟨fun m k0 => ?_, fun s h => ?_⟩
  · have hn : (padMessage m).length - m.length = padCount m.length := by
      rw [length_padMessage, Nat.add_sub_cancel_left]
    obtain ⟨hmin, hmax⟩ := padCount_bounds m.length
    have hframes : (m.length + padCount m.length) % 8 = 0 := by
      unfold padCount
      omega
    rw [hn, length_padMessage]
    exact ⟨hframes, by omega, hmin, hmax, getLast?_padMessage m, unpadMessage_padMessage k0 m, strictValid_padMessage m⟩
  · exact ⟨_, _, exec_pad_of_room (Nat.ne_of_lt h), exec_unpad_padded s, rfl, rfl,
      fun a ha => State.readByte_padded_outside (.inl ha)⟩

end Sys2Proof.Machine
end

section
/-! SUPPORT. The block codec, SPLIT, ENCBUF and DECBUF (R170 to R178): the proofs of O52 to O55. -/

namespace Sys2Proof.Machine

variable {s : State}

/-! ### SPLIT (R172) -/

/-- The number of frames of a message in MBUF fits NFRAMES (R32). -/
theorem frameCount_lt {len : Nat} (h : len ≤ 65536) : frameCount len < 2 ^ 16 := by
  unfold frameCount
  omega

/-- The last frame has at most 8 bytes (R170). -/
theorem lastLength_le (len : Nat) : lastLength len ≤ 8 := by
  unfold lastLength frameCount
  split <;> omega

theorem exec_split_of_truncated (h : s.strictSplit = true ∧ s.mlen % 8 ≠ 0) :
    exec .split s = .next (s.finish .truncatedInput) := by
  rw [exec, execSplit, if_pos h, State.completed_error]

theorem exec_split_of_allowed (h : s.strictSplit = false ∨ s.mlen % 8 = 0) :
    exec .split s = .next
      (State.finish { s with frameinfo := frameWord (frameCount s.mlen) (lastLength s.mlen) } .ok) := by
  have pass : ¬ (s.strictSplit = true ∧ s.mlen % 8 ≠ 0) := by
    rintro ⟨hs, hm⟩
    exact h.elim (by simp [hs]) hm
  rw [exec, execSplit, if_neg pass, State.completed_ok]

/-- Settles O52: the number of frames and the length of the last fit their fields of FRAMEINFO. -/
theorem splitReportsTheFrames : Obligations.SplitReportsTheFrames := by
  refine ⟨rfl, fun s => ⟨exec_split_of_truncated, fun h ll hll => ?_⟩⟩
  subst hll
  refine ⟨_, exec_split_of_allowed h, rfl, fun hle => ?_, rfl⟩
  have hlast := lastLength_le s.mlen
  obtain ⟨hnf, hll, -⟩ := fields_frameWord (frameCount_lt hle) (show lastLength s.mlen < 2 ^ 8 by omega)
  exact ⟨hnf, hll⟩

/-! ### Split and Combine (R170, R171, R177) -/

@[simp] theorem length_splitMessage (d : List Byte) : (splitMessage d).length = frameCount d.length := by
  simp [splitMessage]

/-- Chunk `j` of Split is the 8 bytes from 8j on, or as many as are left. -/
theorem splitMessage_getElem?_eq_some {d chunk : List Byte} {j : Nat} :
    (splitMessage d)[j]? = some chunk ↔ j < frameCount d.length ∧ (d.drop (8 * j)).take 8 = chunk := by
  simp [splitMessage, List.getElem?_eq_some_iff]

/-- The first `n` chunks put together are the first 8n bytes. -/
theorem flatten_chunks (d : List Byte) (n : Nat) :
    ((List.range n).map fun j => (d.drop (8 * j)).take 8).flatten = d.take (8 * n) := by
  induction n with
  | zero => simp
  | succ n ih =>
    rw [List.range_succ, List.map_append, List.flatten_append, ih, Nat.mul_succ, List.take_add]
    simp

/-- R177: the chunks reach the end of the sequence. -/
theorem combineFrames_splitMessage (d : List Byte) : combineFrames (splitMessage d) = d := by
  rw [combineFrames, splitMessage, flatten_chunks, List.take_of_length_le]
  unfold frameCount
  omega

/-- Settles O53: chunk by chunk by `splitMessage_getElem?_eq_some`, and R177. -/
theorem splitTilesTheMessage : Obligations.SplitTilesTheMessage := by
  refine ⟨rfl, fun _ _ => rfl, fun d => ⟨length_splitMessage d, fun j chunk hc => ?_, rfl,
    combineFrames_splitMessage d⟩⟩
  obtain ⟨hj, rfl⟩ := splitMessage_getElem?_eq_some.1 hc
  have hlen : ((d.drop (8 * j)).take 8).length = min 8 (d.length - 8 * j) := by simp
  rw [hlen, length_splitMessage]
  unfold frameCount at hj ⊢
  refine ⟨by omega, fun k hk => ?_, fun hnotLast => by omega, fun hlast => by omega⟩
  rw [List.getElem?_take_of_lt (by omega), List.getElem?_drop]

/-! ### ENCBUF and DECBUF (R174, R175, R178) -/

theorem State.bufferError_of_noKey (hk : s.keyValid = false) : s.bufferError = some .noKey := by
  rw [State.bufferError, if_pos hk]

/-- A short last frame raises TRUNCATED_INPUT in strict mode, else INVALID_BLOCK_SIZE (R178). -/
theorem State.bufferError_of_short (hk : s.keyValid = true) (hm : s.mlen % 8 ≠ 0) :
    s.bufferError = some (if s.strictSplit then .truncatedInput else .invalidBlockSize) := by
  rw [State.bufferError, if_neg (by simp [hk]), if_pos hm]

/-- A failed check discards every frame (R9, R178). -/
theorem State.completed_transformBuffer_of_error {c : ErrCode} (g : Word × Word → Word × Word)
    (h : s.bufferError = some c) : s.completed (s.transformBuffer g) = .next (s.finish c) := by
  simp only [State.transformBuffer, h, State.completed_error]

/-- The state with every frame of the message transformed in place and reported: what ENCBUF and DECBUF apply. -/
def State.transformed (s : State) (g : Word × Word → Word × Word) : State :=
  { s with
    mbuf := Memory.mapFrames s.resets g 0 (s.mlen / 8) s.mbuf
    frameinfo := if s.mlen / 8 = 0 then 0#32 else frameWord (s.mlen / 8) 8 }

theorem State.completed_transformBuffer_of_frames (g : Word × Word → Word × Word) (hk : s.keyValid = true)
    (hm : s.mlen % 8 = 0) : s.completed (s.transformBuffer g) = .next ((s.transformed g).finish .ok) := by
  have pass : s.bufferError = none := State.bufferError_eq_none.2 ⟨hk, hm⟩
  simp only [State.transformBuffer, pass, State.completed_ok, State.transformed]

theorem State.frameHalves_transformed (g : Word × Word → Word × Word) {f : Nat} (hf : f < s.mlen / 8) :
    (s.transformed g).frameHalves f = g (s.frameHalves f) :=
  Memory.readHalves_mapFrames_inside s.resets g 0 _ s.mbuf (by omega)

/-- The bytes after the whole frames stay. -/
theorem State.readByte_transformed_outside (g : Word × Word → Word × Word) {a : Nat} (ha : 8 * (s.mlen / 8) ≤ a) :
    (s.transformed g).readByte a = s.readByte a :=
  Memory.read_mapFrames_outside s.resets g 0 _ s.mbuf (by omega)

/-- What a buffer command for the engine function `g` answers from `s`: the first check that fails, or every frame in
place (R174, R175). -/
def State.BufferCompletes (s : State) (g : Word × Word → Word × Word) (o : Host.Outcome State Fault Refusal) : Prop :=
  (s.keyValid = false → o = .next (s.finish .noKey)) ∧
  (s.keyValid = true → s.mlen % 8 ≠ 0 → s.strictSplit = true → o = .next (s.finish .truncatedInput)) ∧
  (s.keyValid = true → s.mlen % 8 ≠ 0 → s.strictSplit = false → o = .next (s.finish .invalidBlockSize)) ∧
  (s.keyValid = true → s.mlen % 8 = 0 → ∃ t, o = .next t ∧
    (∀ f, f < s.mlen / 8 → t.frameHalves f = g (s.frameHalves f)) ∧
    (∀ a, s.mlen ≤ a → t.readByte a = s.readByte a) ∧
    t.frameinfo = (if s.mlen / 8 = 0 then 0#32 else frameWord (s.mlen / 8) 8) ∧
    t = State.finish { s with mbuf := t.mbuf, frameinfo := t.frameinfo } .ok)

theorem State.bufferCompletes_transformBuffer (s : State) (g : Word × Word → Word × Word) :
    s.BufferCompletes g (s.completed (s.transformBuffer g)) := by
  refine ⟨fun hk => ?noKey, fun hk hm hs => ?strict, fun hk hm hs => ?lenient, fun hk hm => ?frames⟩
  case noKey => exact State.completed_transformBuffer_of_error g (State.bufferError_of_noKey hk)
  case strict => exact State.completed_transformBuffer_of_error g (by simp [State.bufferError_of_short hk hm, hs])
  case lenient => exact State.completed_transformBuffer_of_error g (by simp [State.bufferError_of_short hk hm, hs])
  case frames =>
    exact ⟨_, State.completed_transformBuffer_of_frames g hk hm, fun f => State.frameHalves_transformed g,
      fun a ha => State.readByte_transformed_outside g (by omega), rfl, rfl⟩

/-- Settles O54: ENCBUF is the buffer command of EncryptHalves. -/
theorem encbufCompletes : Obligations.EncbufCompletes :=
  ⟨rfl, fun s => s.bufferCompletes_transformBuffer (encryptHalves s.sk)⟩

/-- Settles O55: DECBUF is the buffer command of DecryptHalves. -/
theorem decbufCompletes : Obligations.DecbufCompletes :=
  ⟨rfl, fun s => s.bufferCompletes_transformBuffer (decryptHalves s.sk)⟩

end Sys2Proof.Machine
end

section
/-! SUPPORT. Issue and completion of a command, and NOP (R190 to R194): the proofs of O6, O7, O8 and O35. -/

namespace Sys2Proof.Machine

variable {s t : State} {i : Instr}

/-! ### A write to CMD (R190, R191) -/

/-- Settles O6: a write to CMD that is not dropped is `State.issue`. -/
theorem idleCommandWriteIssues : Obligations.IdleCommandWriteIssues := by
  intro s w rest hb h
  have issued : State.writeReg { s with inputs := rest } .cmd w = State.issue { s with inputs := rest } w :=
    State.unlessBusy_idle (s := { s with inputs := rest }) hb _
  refine ⟨_, step_write_reg .cmd h, ?_⟩
  rw [issued]
  exact ⟨rfl, rfl⟩

/-- Settles O7: CMD is one of the registers that drop a write while BUSY = 1. -/
theorem busyCommandWriteIsDropped : Obligations.BusyCommandWriteIsDropped := fun _ p _ _ hp h =>
  step_write_reg_busy .cmd (State.busy_eq_true.2 ⟨p, hp⟩) rfl nofun nofun h

/-! ### NOP (R194) -/

/-- NOP's completion from any state. -/
theorem exec_nop (s : State) : exec .nop s = .next { s with errCode := .ok, done := true, pend := none } := rfl

/-- Settles O35: NOP is its completion. -/
theorem nopOnlyCompletes : Obligations.NopOnlyCompletes := ⟨rfl, exec_nop⟩

/-! ### The outcome of a command is its first failing check (R211) -/

/-- The validity of R154 of the message, read from MBUF. -/
theorem State.strictValid_message (h : s.mlen ≠ 0) :
    strictValid s.message = true ↔ s.PaddingValid (s.readByte (s.mlen - 1)) := by
  have fromEnd (j : Nat) : s.message[s.mlen - (j + 1)]? = some (s.readByte (s.mlen - (j + 1))) := by
    have inside : s.mlen - (j + 1) < s.message.length := by rw [State.length_message]; omega
    rw [List.getElem?_eq_getElem inside, State.getElem_message s inside]
  rw [← State.badPadding_eq_false, strictValid, State.getLast?_message s h]
  simp [State.badPadding, fromEnd, Nat.one_le_iff_ne_zero, and_assoc]

theorem State.completed_transformDin_errCode {g : Word × Word → Word × Word}
    (h : s.completed (s.transformDin g) = .next t) : t.errCode = if s.keyValid = false then .noKey else .ok := by
  cases hk : s.keyValid with
  | false =>
    cases (State.completed_transformDin_of_noKey g hk).symm.trans h
    rfl
  | true =>
    cases (State.completed_transformDin_of_key g hk).symm.trans h
    rfl

theorem State.completed_transformBuffer_errCode {g : Word × Word → Word × Word}
    (h : s.completed (s.transformBuffer g) = .next t) : t.errCode = s.bufferError.getD .ok := by
  rcases State.transformBuffer_cases s g with ⟨hk, hm, e⟩ | ⟨c, hc, e⟩ <;> rw [e] at h <;> cases h
  · rw [State.bufferError_eq_none.2 ⟨hk, hm⟩]
    rfl
  · rw [hc]
    rfl

/-- The checks of ENCBUF and DECBUF are those of R211, in its order. -/
theorem State.firstFailure_buffer (hi : i = .encbuf ∨ i = .decbuf) : s.firstFailure i = s.bufferError.getD .ok := by
  cases hk : s.keyValid with
  | false =>
    rw [State.bufferError_of_noKey hk]
    rcases hi with rfl | rfl <;> simp [State.firstFailure, hk]
  | true =>
    by_cases hm : s.mlen % 8 = 0
    · rw [State.bufferError_eq_none.2 ⟨hk, hm⟩]
      rcases hi with rfl | rfl <;> simp [State.firstFailure, hk, hm]
    · rw [State.bufferError_of_short hk hm, Option.getD_some]
      rcases hi with rfl | rfl <;> simp [State.firstFailure, hk, hm]

theorem exec_pad_errCode (h : exec .pad s = .next t) : t.errCode = s.firstFailure .pad := by
  by_cases hfull : s.mlen = s.cfg.mbufBytes
  · cases (exec_pad_of_full hfull).symm.trans h
    simp [State.firstFailure, hfull]
  · cases (exec_pad_of_room hfull).symm.trans h
    simp [State.firstFailure, hfull]

theorem exec_split_errCode (h : exec .split s = .next t) : t.errCode = s.firstFailure .split := by
  by_cases hcut : s.strictSplit = true ∧ s.mlen % 8 ≠ 0
  · cases (exec_split_of_truncated hcut).symm.trans h
    simp [State.firstFailure, hcut]
  · have hok : s.strictSplit = false ∨ s.mlen % 8 = 0 :=
      (not_and_or.1 hcut).imp Bool.eq_false_of_not_eq_true not_not.1
    cases (exec_split_of_allowed hok).symm.trans h
    rcases hok with hs | hm
    · simp [State.firstFailure, hs]
    · simp [State.firstFailure, hm]

theorem exec_unpad_errCode (h : exec .unpad s = .next t) : t.errCode = s.firstFailure .unpad := by
  by_cases hempty : s.mlen = 0
  · cases (exec_unpad_of_empty hempty).symm.trans h
    simp [State.firstFailure, hempty]
  · by_cases hbad : s.strictPad = true ∧ ¬ s.PaddingValid (s.readByte (s.mlen - 1))
    · obtain ⟨hs, hk⟩ := hbad
      cases (exec_unpad_of_invalid hempty hs hk).symm.trans h
      rw [← State.strictValid_message hempty, Bool.not_eq_true] at hk
      simp [State.firstFailure, hempty, hs, hk]
    · have hok : s.strictPad = false ∨ s.PaddingValid (s.readByte (s.mlen - 1)) :=
        (not_and_or.1 hbad).imp Bool.eq_false_of_not_eq_true not_not.1
      cases (exec_unpad_of_valid hempty hok).symm.trans h
      rw [← State.strictValid_message hempty] at hok
      rcases hok with hs | hk
      · simp [State.firstFailure, hempty, hs]
      · simp [State.firstFailure, hempty, hk]

/-- A command completes with the first check of R211 that fails. -/
theorem exec_errCode (h : exec i s = .next t) : t.errCode = s.firstFailure i := by
  cases i with
  | nop | loadkey | roundf =>
    cases h
    simp [State.firstFailure]
  | encb | decb => simpa [State.firstFailure] using State.completed_transformDin_errCode h
  | pad => exact exec_pad_errCode h
  | unpad => exact exec_unpad_errCode h
  | split => exact exec_split_errCode h
  | encbuf => exact (State.completed_transformBuffer_errCode h).trans (State.firstFailure_buffer (.inl rfl)).symm
  | decbuf => exact (State.completed_transformBuffer_errCode h).trans (State.firstFailure_buffer (.inr rfl)).symm

/-! ### Completion (R192, R193, R195) -/

/-- Every command sets DONE and empties PEND. -/
theorem exec_done_pend (h : exec i s = .next t) : t.done = true ∧ t.pend = none := by
  rcases exec_cases h with ⟨_, rfl⟩ | ⟨-, rfl⟩ | ⟨-, _, _, rfl⟩ | ⟨-, -, rfl⟩ | ⟨-, _, rfl⟩ | ⟨-, rfl⟩ | ⟨-, -, _, rfl⟩ <;>
    exact ⟨rfl, rfl⟩

/-- Only LOADKEY changes KEYVALID, and it succeeds (R111). -/
theorem exec_changes_keyValid (h : exec i s = .next t) (hk : t.keyValid ≠ s.keyValid) :
    i = .loadkey ∧ t.errCode = .ok ∧ t.keyValid = true := by
  rcases exec_cases h with ⟨_, rfl⟩ | ⟨hi, rfl⟩ | ⟨-, _, _, rfl⟩ | ⟨-, -, rfl⟩ | ⟨-, _, rfl⟩ | ⟨-, rfl⟩ | ⟨-, -, _, rfl⟩
  case inr.inl => exact ⟨hi, rfl, rfl⟩
  all_goals exact absurd rfl hk

/-- A pending word that selects a command runs it (R192). -/
theorem State.engineTurn_of_accepted {w : Word} (hp : s.pend = some w) (hd : decode w = .ok i) :
    s.engineTurn = exec i s := by
  simp [State.engineTurn, hp, hd]

/-- Settles O8: by whether the word selects a command; a command's part is what is said of `exec` above. -/
theorem completionUpdatesStatus : Obligations.CompletionUpdatesStatus := by
  intro s w hp
  cases hd : decode w with
  | ok i =>
    obtain ⟨t, h⟩ := exec_answers i s
    obtain ⟨hdone, hpend⟩ := exec_done_pend h
    refine ⟨t, (State.engineTurn_of_accepted hp hd).trans h, hdone, State.busy_eq_false.2 hpend, hpend, exec_werr h,
      fun hk => ?_, fun j hj => ?_, nofun⟩
    · obtain ⟨rfl, hloaded⟩ := exec_changes_keyValid h hk
      exact ⟨rfl, hloaded⟩
    · cases hj
      exact ⟨h, exec_errCode h⟩
  | error e =>
    have rejected : ¬ ∃ i, decode w = .ok i := by simp [hd]
    exact ⟨_, State.engineTurn_of_not_accepted hp rejected, rfl, rfl, rfl, rfl, fun hk => absurd rfl hk, nofun,
      fun _ _ => rfl⟩

end Sys2Proof.Machine
end

section
/-! SUPPORT. The outcome codes (R202 to R207, R211) and the irq output (R214): the proofs of O10 and O31. -/

namespace Sys2Proof.Machine

variable {s t : State} {rest : List Event} {wdata : Word}

/-! ### Which check is reported (R211) -/

/-- Settles O10: a rejected word is `State.engineTurn_of_not_accepted`, a command is `exec_errCode`. -/
theorem errorCodesInCheckOrder : Obligations.ErrorCodesInCheckOrder := by
  refine ⟨fun s w e hp hd => ?_, fun i s => ?_⟩
  · have rejected : ¬ ∃ i, decode w = .ok i := by simp [hd]
    exact ⟨_, State.engineTurn_of_not_accepted hp rejected, rfl⟩
  · obtain ⟨t, h⟩ := exec_answers i s
    exact ⟨t, h, exec_errCode h⟩

/-! ### The irq output of each operation (R214) -/

theorem State.irq_eq_true : s.irq = true ↔ s.done = true ∧ s.ien = true := Bool.and_eq_true_iff

@[simp] theorem State.resetEvent_irq (s : State) : s.resetEvent.irq = false := rfl

@[simp] theorem State.setCtrl_irq (s : State) (wdata : Word) : (s.setCtrl wdata).irq = (s.done && wdata.getLsbD 0) := rfl

@[simp] theorem State.answer_irq (s : State) (r : Reply) : (s.answer r).irq = s.irq := rfl

/-- A write to STATUS with bit 1 set clears DONE, so irq with it (R216). -/
theorem State.acknowledge_irq (h : wdata.getLsbD 1 = true) : (s.acknowledge wdata).irq = false := by
  simp [State.irq, h]

/-- No command changes IEN. -/
theorem exec_ien {i : Instr} (h : exec i s = .next t) : t.ien = s.ien := by
  rcases exec_cases h with ⟨_, rfl⟩ | ⟨-, rfl⟩ | ⟨-, _, _, rfl⟩ | ⟨-, -, rfl⟩ | ⟨-, _, rfl⟩ | ⟨-, rfl⟩ | ⟨-, -, _, rfl⟩ <;>
    rfl

/-- Neither does the engine's turn. -/
theorem State.engineTurn_ien (h : s.engineTurn = .next t) : t.ien = s.ien := by
  rcases State.engineTurn_cases h with ⟨-, e⟩ | ⟨_, _, -, -, e⟩ | ⟨_, _, -, -, e⟩
  · rw [Host.Outcome.next.inj e]
  · exact exec_ien e.symm
  · rw [Host.Outcome.next.inj e, State.finish_ien]

/-- A completion, with success or error, leaves irq at IEN. -/
theorem State.engineTurn_irq {w : Word} (hp : s.pend = some w) : ∃ t, s.engineTurn = .next t ∧ t.irq = s.ien := by
  obtain ⟨t, h, hdone, -⟩ := completionUpdatesStatus s w hp
  exact ⟨t, h, by rw [State.irq, hdone, Bool.true_and, State.engineTurn_ien h]⟩

/-! ### The irq output after a step -/

/-- A write to a writable register leaves irq as the register's write does. -/
theorem step_write_reg_irq (r : Reg) (hro : r.readOnly = false)
    (h : s.inputs = .write (s.cfg.base + r.offset) .word wdata :: rest) :
    ∃ t, step s = .next t ∧ t.irq = (State.writeReg { s with inputs := rest } r wdata).irq :=
  ⟨_, step_write_reg r h, by simp [hro]⟩

/-- An accepted write to CTRL stores the new enables (R24). -/
theorem State.writeReg_ctrl_idle (hb : s.busy = false) (h31 : wdata.getLsbD 31 = false) :
    s.writeReg .ctrl wdata = s.setCtrl wdata := by
  rw [State.writeReg, h31, if_neg Bool.false_ne_true, State.unlessBusy_idle hb]

/-- A write to CTRL with SRST set is a reset, whatever BUSY is (R232). -/
theorem State.writeReg_ctrl_softReset (h31 : wdata.getLsbD 31 = true) : s.writeReg .ctrl wdata = s.resetEvent := by
  rw [State.writeReg, if_pos h31]

/-- Settles O31: each clause is what one operation does to irq, carried through the step. -/
theorem irqFollowsDoneAndIen : Obligations.IrqFollowsDoneAndIen := by
  intro s
  refine ⟨State.irq_eq_true, fun w hp => State.engineTurn_irq hp, fun rest h => ⟨_, step_rst h, State.resetEvent_irq _⟩,
    fun wdata rest h31 h => ?_, fun wdata rest h1 h => ?_, fun wdata rest hb h31 h => ?_⟩
  · simpa only [State.writeReg_ctrl_softReset h31, State.resetEvent_irq] using step_write_reg_irq .ctrl rfl h
  · simpa only [State.writeReg, State.acknowledge_irq h1] using step_write_reg_irq .status rfl h
  · have stored := State.writeReg_ctrl_idle (s := { s with inputs := rest }) hb h31
    simpa only [stored, State.setCtrl_irq] using step_write_reg_irq .ctrl rfl h

end Sys2Proof.Machine
end

section
/-! SUPPORT. A reset, hardware or soft (R50, R231, R232): the proofs of O14 and O15. -/

namespace Sys2Proof.Machine

variable {s : State} {rest : List Event} {wdata : Word}

/-! ### The state a reset leaves (R50) -/

@[simp] theorem State.resetEvent_ctrlWord (s : State) : s.resetEvent.ctrlWord = 0#32 := by
  simp [State.ctrlWord, flagAt]

@[simp] theorem State.resetEvent_busy (s : State) : s.resetEvent.busy = false := rfl

@[simp] theorem State.resetEvent_statusWord (s : State) : s.resetEvent.statusWord = 0#32 := by
  simp [State.statusWord, flagAt, ErrCode.number]

/-- No byte of MBUF has been written since the reset, so each is the reset's own free byte (R50, log 3). -/
@[simp] theorem State.resetEvent_readByte (s : State) (a : Nat) :
    s.resetEvent.readByte a = Config.mbufAtReset s.resetEvent.resets a := rfl

/-! ### The commands that use the key (R205) -/

/-- Without a key ENCB, DECB, ENCBUF and DECBUF raise NO_KEY, whatever else would fail. -/
theorem exec_of_noKey (hk : s.keyValid = false) {i : Instr} (hi : i ∈ [Instr.encb, .decb, .encbuf, .decbuf]) :
    exec i s = .next (s.finish .noKey) := by
  simp only [List.mem_cons, List.not_mem_nil, or_false] at hi
  rcases hi with rfl | rfl | rfl | rfl
  · exact State.completed_transformDin_of_noKey _ hk
  · exact State.completed_transformDin_of_noKey _ hk
  · exact State.completed_transformBuffer_of_error _ (State.bufferError_of_noKey hk)
  · exact State.completed_transformBuffer_of_error _ (State.bufferError_of_noKey hk)

/-- Settles O14: the step is `State.resetEvent`, whose fields are those of R50; KEYVALID is 0 after it. -/
theorem hardwareResetSetsResetValues : Obligations.HardwareResetSetsResetValues := by
  intro s rest h
  obtain ⟨hakey, hsk⟩ := State.keys_zero (t := State.resetEvent { s with inputs := rest }) rfl
  exact ⟨_, step_rst h, State.resetEvent_ctrlWord _, State.resetEvent_statusWord _, rfl, hakey, hsk,
    rfl, rfl, rfl, rfl, rfl, rfl, rfl, State.resetEvent_busy _, State.resetEvent_keyValid _, State.resetEvent_irq _,
    State.resetEvent_readByte _, State.resetEvent_resets _, rfl, rfl, rfl,
    fun _ => exec_of_noKey (State.resetEvent_keyValid _)⟩

/-! ### A soft reset (R232) -/

/-- A CTRL write with SRST set is a reset with an OK response, whatever BUSY is. -/
theorem step_softReset (h31 : wdata.getLsbD 31 = true)
    (h : s.inputs = .write (s.cfg.base + Reg.ctrl.offset) .word wdata :: rest) :
    step s = .next ((State.resetEvent { s with inputs := rest }).answer (.write .ok)) := by
  rw [step_write_reg .ctrl h, if_neg (by decide), State.writeReg_ctrl_softReset h31]

/-- Settles O15: a hardware reset and `step_softReset` leave the same `State.resetEvent`, but for the response. -/
theorem softResetEqualsHardwareReset : Obligations.SoftResetEqualsHardwareReset :=
  fun _ _ _ h31 h => ⟨_, step_rst rfl, State.resetEvent_ctrlWord _, step_softReset h31 h⟩

end Sys2Proof.Machine
end

section
/-! SUPPORT. Decoding and encoding (R90 to R94): the proofs of O1 and O2. -/

namespace Sys2Proof.Machine

/-- The word of a command decodes to it (R91). -/
theorem decode_encode (i : Instr) : decode (encode i) = .ok i :=
  decode_eq_ok.2 ⟨reservedField_encode i, by rw [opcodeField_encode, opcodeMap_opcode]⟩

/-- No other word decodes to a command: RSV is 0 and OPCODE is the command's own. -/
theorem eq_encode_of_decode {w : Word} {i : Instr} (h : decode w = .ok i) : w = encode i := by
  obtain ⟨hrsv, hop⟩ := decode_eq_ok.1 h
  apply BitVec.eq_of_toNat_eq
  rw [toNat_eq_fields w, toNat_eq_fields (encode i), hrsv, reservedField_encode, opcodeField_encode,
    opcode_of_opcodeMap hop]

/-- The well-formed words, by their fields (R93, R94). -/
theorem wellFormed_word_iff {w : Word} :
    WellFormed.word w = true ↔ reservedField w = 0#24 ∧ (opcodeField w).toNat ≤ 0x09 := by
  rw [WellFormed.word, Bool.and_eq_true, WellFormed.reservedClear, beq_iff_eq, WellFormed.opcodeDefined,
    decide_eq_true_eq, reservedField, opcodeField]

/-- Settles O2: both directions by the two fields of a word; the accepted words by `exists_decode_eq_ok_iff_fields`. -/
theorem decodeAndEncodeAgree : Obligations.DecodeAndEncodeAgree :=
  ⟨fun i _ => decode_encode i, fun _ _ => eq_encode_of_decode,
    fun _ => wellFormed_word_iff.trans exists_decode_eq_ok_iff_fields.symm⟩

/-- Settles O1: the ten words are those of the commands, by `decode_encode`; the other four are refused by evaluation. -/
theorem commandWordsDecodeAsTabled : Obligations.CommandWordsDecodeAsTabled :=
  ⟨decode_encode .nop, decode_encode .loadkey, decode_encode .roundf, decode_encode .encb, decode_encode .decb,
    decode_encode .pad, decode_encode .unpad, decode_encode .split, decode_encode .encbuf, decode_encode .decbuf,
    by decide, by decide, by decide, by decide⟩

end Sys2Proof.Machine
end

section
/-! SUPPORT. The invariant of the FCC: the proofs of O16 and O17. The invariant speaks of cfg, MBUF, MLEN, the keys and
FRAMEINFO only, so an update of any other field keeps it by definition. -/

namespace Sys2Proof.Machine

variable {s t : State} {rest : List Event}

/-! ### One update of a field the invariant speaks of -/

theorem State.Inv.setMbuf {m : Memory} (h : s.Inv) (hwf : Memory.wf m) (hin : Memory.within s.cfg.mbufBytes m) :
    State.Inv { s with mbuf := m } := by
  obtain ⟨hc, -, hlen, hkeys, hinfo⟩ := h
  exact ⟨hc, ⟨hwf, hin⟩, hlen, hkeys, hinfo⟩

theorem State.Inv.setMlen {n : Nat} (h : s.Inv) (hn : n ≤ s.cfg.mbufBytes) : State.Inv { s with mlen := n } := by
  obtain ⟨hc, hmbuf, -, hkeys, hinfo⟩ := h
  exact ⟨hc, hmbuf, hn, hkeys, hinfo⟩

/-- A FRAMEINFO word of `nf` frames that fit MBUF, the last of `ll` bytes, is legal (R32). -/
theorem State.frameinfoLegal_of_eq {nf ll : Nat} (hc : s.cfg.legal = true) (hw : s.frameinfo = frameWord nf ll)
    (hnf : nf ≤ s.cfg.mbufBytes / 8) (hll : ll ≤ 8) (hz : ll = 0 ↔ nf = 0) : s.FrameinfoLegal := by
  obtain ⟨-, hmax⟩ := Config.legal_mbufBytes hc
  obtain ⟨hframes, hlast, hrsv⟩ := fields_frameWord (nf := nf) (ll := ll) (by omega) (by omega)
  simp only [State.FrameinfoLegal, State.nframes, State.lastlen, hw, hframes, hlast]
  exact ⟨hnf, hll, hz, hrsv⟩

theorem State.Inv.setFrameinfo {nf ll : Nat} (h : s.Inv) (hnf : nf ≤ s.cfg.mbufBytes / 8) (hll : ll ≤ 8)
    (hz : ll = 0 ↔ nf = 0) : State.Inv { s with frameinfo := frameWord nf ll } := by
  obtain ⟨hc, hmbuf, hlen, hkeys, -⟩ := h
  exact ⟨hc, hmbuf, hlen, hkeys, State.frameinfoLegal_of_eq hc rfl hnf hll hz⟩

/-- The schedule of a key is a legal subkey file for it (R34). -/
theorem State.Inv.setKeys (h : s.Inv) (key : Word) :
    State.Inv { s with akey := key, sk := keySchedule s.cfg.ksStep key, keyValid := true } := by
  obtain ⟨hc, hmbuf, hlen, -, hinfo⟩ := h
  refine ⟨hc, hmbuf, hlen, ?_, hinfo⟩
  rw [State.KeysLegal, if_pos rfl]
  exact toNat_keySchedule s.cfg.ksStep key

/-- A reset leaves a legal state, whatever it was before (R50). -/
theorem State.resetEvent_inv (hc : s.cfg.legal = true) : s.resetEvent.Inv := by
  have hinfo : s.resetEvent.FrameinfoLegal :=
    State.frameinfoLegal_of_eq (nf := 0) (ll := 0) hc rfl (Nat.zero_le _) (Nat.zero_le _) Iff.rfl
  refine ⟨hc, ⟨.nil, nofun⟩, Nat.zero_le _, ?_, hinfo⟩
  rw [State.KeysLegal, if_neg (by simp)]
  exact State.keys_zero rfl

/-- Settles O16: the reset state is what a reset of it leaves, but for the count of resets. -/
theorem resetStateMeetsInvariant : Obligations.ResetStateMeetsInvariant :=
  State.resetEvent_inv (s := State.reset) (by decide)

/-! ### The commands (R192) -/

/-- PAD below the capacity keeps MBUF and MLEN inside MBUF_BYTES (R152). -/
theorem State.Inv.padded (h : s.Inv) (hroom : s.mlen ≠ s.cfg.mbufBytes) : s.padded.Inv := by
  have ⟨hc, ⟨hwf, hin⟩, hlen, _⟩ := h
  have hfits : s.mlen + padCount s.mlen ≤ s.cfg.mbufBytes :=
    add_padCount_le (Config.legal_mbufBytes_mod hc) (Nat.lt_of_le_of_ne hlen hroom)
  exact (h.setMbuf (Memory.wf_setMany _ _ hwf) (Memory.within_setMany hin (by rwa [length_padBytes]))).setMlen hfits

/-- SPLIT reports frames that fit MBUF (R170, R172). -/
theorem State.Inv.split (h : s.Inv) :
    State.Inv { s with frameinfo := frameWord (frameCount s.mlen) (lastLength s.mlen) } := by
  have ⟨hc, _, hlen, _⟩ := h
  have hmod := Config.legal_mbufBytes_mod hc
  have hlen : s.mlen ≤ s.cfg.mbufBytes := hlen
  refine h.setFrameinfo ?_ (lastLength_le _) ?_
  · unfold frameCount
    omega
  · unfold lastLength frameCount
    split <;> omega

/-- ENCBUF and DECBUF write only frames below MLEN, and report them (R174, R175). -/
theorem State.Inv.transformed (h : s.Inv) (g : Word × Word → Word × Word) : (s.transformed g).Inv := by
  have ⟨_, ⟨hwf, hin⟩, hlen, _⟩ := h
  have hlen : s.mlen ≤ s.cfg.mbufBytes := hlen
  have hmbuf := h.setMbuf (Memory.wf_mapFrames s.resets g 0 (s.mlen / 8) hwf)
    (Memory.within_mapFrames s.resets g 0 (s.mlen / 8) hin (by omega))
  rw [State.transformed]
  split
  · exact hmbuf.setFrameinfo (nf := 0) (ll := 0) (Nat.zero_le _) (by decide) Iff.rfl
  · exact hmbuf.setFrameinfo (Nat.div_le_div_right hlen) le_rfl (by omega)

theorem exec_inv {i : Instr} (hs : s.Inv) (h : exec i s = .next t) : t.Inv := by
  rcases exec_cases h with ⟨_, rfl⟩ | ⟨-, rfl⟩ | ⟨-, _, _, rfl⟩ | ⟨-, hroom, rfl⟩ | ⟨-, k, rfl⟩ | ⟨-, rfl⟩ |
    ⟨-, -, g, rfl⟩
  · exact hs
  · exact hs.setKeys s.keyin
  · exact hs
  · exact hs.padded hroom
  · have ⟨_, _, hlen, _⟩ := hs
    exact hs.setMlen ((Nat.sub_le ..).trans hlen)
  · exact hs.split
  · exact hs.transformed g

/-! ### A step -/

theorem State.engineTurn_inv (hs : s.Inv) (h : s.engineTurn = .next t) : t.Inv := by
  rcases State.engineTurn_cases h with ⟨-, e⟩ | ⟨_, _, -, -, e⟩ | ⟨_, _, -, -, e⟩
  · cases e
    exact hs
  · exact exec_inv hs e.symm
  · cases e
    exact hs

/-- The last aligned word of MBUF lies inside it, since MBUF_BYTES is a whole number of frames. -/
theorem State.Inv.setWord (h : s.Inv) {a : Nat} (ha : a < s.cfg.mbufBytes) (h4 : a % 4 = 0) (v : Word) :
    State.Inv { s with mbuf := Memory.setWord s.mbuf a v } := by
  have ⟨hc, ⟨hwf, hin⟩, _⟩ := h
  have hmod := Config.legal_mbufBytes_mod hc
  exact h.setMbuf (Memory.wf_setWord a v hwf) (Memory.within_setWord v hin (by omega))

theorem State.Inv.writeByte (h : s.Inv) {a : Nat} (ha : a < s.cfg.mbufBytes) (b : Byte) : (s.writeByte a b).Inv := by
  have ⟨_, ⟨hwf, hin⟩, _⟩ := h
  exact h.setMbuf (Memory.wf_set a b hwf) (Memory.within_set b hin ha)

/-- A host write keeps the invariant: those of MLEN and MBUF are checked, a soft reset is a reset. -/
theorem write_step_inv {addr : Nat} {size : Width} {d : Word} (hs : s.Inv)
    (he : s.inputs = .write addr size d :: rest) (h : step s = .next t) : t.Inv := by
  rcases write_step_cases he h with rfl | ⟨off, -, -, u, s', rfl, rfl | ⟨rfl, hu⟩⟩
  · exact hs
  · exact hs
  · rcases hu with rfl | ⟨-, -, -, rfl⟩ | ⟨-, -, rfl⟩ | ⟨-, hu⟩
    · exact hs
    · obtain ⟨hc, -⟩ := hs
      exact State.resetEvent_inv (s := { s with inputs := rest }) hc
    · exact hs
    · rcases hu with rfl | rfl | rfl | rfl | rfl | ⟨-, -, hd, rfl⟩ | ⟨a, ha, rfl⟩ | ⟨a, ha, h4, rfl⟩
      · exact hs
      · exact hs
      · exact hs
      · exact hs
      · exact hs
      · exact hs.setMlen hd
      · exact hs.writeByte ha _
      · exact hs.setWord ha h4 d

/-- Settles O17: by the event of the step; a read or a poll changes no field the invariant speaks of. -/
theorem stepKeepsInvariant : Obligations.StepKeepsInvariant := by
  intro s t hs h
  rcases step_cases h with ⟨-, ht⟩ | ⟨e, rest, he, ht⟩
  · exact State.engineTurn_inv hs ht
  · cases e with
    | read addr size =>
      obtain ⟨dr, reps, rfl, -⟩ := read_step_frame he h
      exact hs
    | write addr size d => exact write_step_inv hs he h
    | poll =>
      obtain ⟨dr, reps, ins, rfl⟩ := poll_step_frame he h
      exact hs
    | engine => exact State.engineTurn_inv (s := { s with inputs := rest }) hs ht
    | rst =>
      cases ht
      obtain ⟨hc, -⟩ := hs
      exact State.resetEvent_inv (s := { s with inputs := rest }) hc

end Sys2Proof.Machine
end

section
/-! SUPPORT. The words of STATUS and CTRL and the reads that return them (R24, R25, R45, R67, R70): the proofs of O18, O20,
O21 and O22. -/

namespace Sys2Proof.Machine

variable {s t : State} {rest : List Event}

/-! ### The bits of STATUS and CTRL (R24, R25) -/

theorem getLsbD_flagAt (b : Bool) (n j : Nat) : (flagAt b n).getLsbD j = (decide (j < 32) && decide (j = n) && b) := by
  rw [flagAt, BitVec.getLsbD_shiftLeft, BitVec.getLsbD_setWidth, BitVec.getLsbD_ofBool]
  by_cases hj : j = n
  · subst hj
    simp
  · by_cases hlt : j < n
    · simp [hj, hlt]
    · simp [hj, show j - n ≠ 0 by omega]

/-- STATUS bit by bit: four flags, and the error code from bit 8 on. -/
theorem State.statusWord_getLsbD (s : State) {j : Nat} (hj : j < 32) :
    s.statusWord.getLsbD j = (decide (j = 0) && s.busy || decide (j = 1) && s.done || decide (j = 2) && s.keyValid ||
      decide (j = 3) && s.werr || !decide (j < 8) && s.errCode.number.getLsbD (j - 8)) := by
  simp only [State.statusWord, BitVec.getLsbD_or, getLsbD_flagAt, BitVec.getLsbD_shiftLeft, BitVec.getLsbD_setWidth,
    hj, show j - 8 < 32 by omega, decide_true, Bool.true_and]

/-- CTRL bit by bit. -/
theorem State.ctrlWord_getLsbD (s : State) {j : Nat} (hj : j < 32) :
    s.ctrlWord.getLsbD j =
      (decide (j = 0) && s.ien || decide (j = 1) && s.strictPad || decide (j = 2) && s.strictSplit) := by
  simp only [State.ctrlWord, BitVec.getLsbD_or, getLsbD_flagAt, hj, decide_true, Bool.true_and]

/-- A field of a word, from the bits of the word. -/
theorem extractLsb'_eq_of_getLsbD {x : Word} {start len : Nat} {y : BitVec len}
    (h : ∀ j, j < len → x.getLsbD (start + j) = y.getLsbD j) : x.extractLsb' start len = y := by
  ext j hj
  rw [BitVec.getElem_extractLsb', h j hj, BitVec.getLsbD_eq_getElem]

/-- The three fields of CTRL, and 0 in every other bit. -/
theorem State.ctrlWord_fields (s : State) :
    s.ctrlWord.getLsbD 0 = s.ien ∧ s.ctrlWord.getLsbD 1 = s.strictPad ∧ s.ctrlWord.getLsbD 2 = s.strictSplit ∧
      s.ctrlWord.extractLsb' 3 29 = 0#29 := by
  refine ⟨?_, ?_, ?_, extractLsb'_eq_of_getLsbD fun j hj => ?_⟩ <;> rw [s.ctrlWord_getLsbD (by omega)]
  · simp
  · simp
  · simp
  · simp [show 3 + j ≠ 1 by omega, show 3 + j ≠ 2 by omega]

/-- The four flags of STATUS. -/
theorem State.statusWord_flags (s : State) :
    s.statusWord.getLsbD 0 = s.busy ∧ s.statusWord.getLsbD 1 = s.done ∧ s.statusWord.getLsbD 2 = s.keyValid ∧
      s.statusWord.getLsbD 3 = s.werr := by
  refine ⟨?_, ?_, ?_, ?_⟩ <;> rw [s.statusWord_getLsbD (by decide)] <;> simp

/-- Above the flags there is only the error code, from bit 8 on. -/
theorem State.statusWord_getLsbD_of_ge (s : State) {j : Nat} (h4 : 4 ≤ j) (hj : j < 32) :
    s.statusWord.getLsbD j = (!decide (j < 8) && s.errCode.number.getLsbD (j - 8)) := by
  simp [s.statusWord_getLsbD hj, show j ≠ 0 by omega, show j ≠ 1 by omega, show j ≠ 2 by omega, show j ≠ 3 by omega]

/-- The error code's field, and 0 in the bits around it. -/
theorem State.statusWord_fields (s : State) :
    s.statusWord.extractLsb' 4 4 = 0#4 ∧ s.statusWord.extractLsb' 8 4 = s.errCode.number ∧
      s.statusWord.extractLsb' 12 20 = 0#20 := by
  refine ⟨extractLsb'_eq_of_getLsbD fun j hj => ?_, extractLsb'_eq_of_getLsbD fun j hj => ?_,
    extractLsb'_eq_of_getLsbD fun j hj => ?_⟩ <;> rw [s.statusWord_getLsbD_of_ge (by omega) (by omega)]
  · simp [show 4 + j < 8 by omega]
  · simp
  · simp [BitVec.getLsbD_of_ge _ (12 + j - 8) (show 4 ≤ 12 + j - 8 by omega)]

theorem ErrCode.toNat_number_lt (c : ErrCode) : c.number.toNat < 8 := by cases c <;> decide

/-- Settles O18: the flags and fields of STATUS, a register that no command makes volatile. -/
theorem statusWordLayout : Obligations.StatusWordLayout := by
  intro s
  obtain ⟨hbusy, hdone, hkey, hwerr⟩ := s.statusWord_flags
  obtain ⟨hlow, hcode, hhigh⟩ := s.statusWord_fields
  refine ⟨hbusy, hdone, hkey, hwerr, hlow, hcode, hhigh, ?_, ErrCode.toNat_number_lt _,
    fun rest h => step_read_stable .status rfl h⟩
  cases s.errCode <;> rfl

/-! ### Register reads -/

/-- While BUSY = 0 a register reads the value it holds. -/
theorem step_read_reg_idle (r : Reg) (hb : s.busy = false)
    (h : s.inputs = .read (s.cfg.base + r.offset) .word :: rest) :
    step s = .next { s with inputs := rest, replies := .read .ok (s.readReg r) :: s.replies } :=
  step_read_idle (by have := r.offset_lt; omega) hb (placeAt_offset s.cfg r) h

/-- Settles O20: each offset is a register's. -/
theorem idleReadsReturnTheRegisters : Obligations.IdleReadsReturnTheRegisters := by
  refine ⟨State.ctrlWord_fields, fun s off v rest hb hoff h => ?_⟩
  rcases hoff with hoff | ⟨i, rfl, rfl⟩
  · simp only [List.mem_cons, Prod.mk.injEq, List.not_mem_nil, or_false] at hoff
    rcases hoff with ⟨rfl, rfl⟩ | ⟨rfl, rfl⟩ | ⟨rfl, rfl⟩ | ⟨rfl, rfl⟩ | ⟨rfl, rfl⟩ | ⟨rfl, rfl⟩ | ⟨rfl, rfl⟩ |
      ⟨rfl, rfl⟩ | ⟨rfl, rfl⟩
    · exact step_read_reg_idle .ctrl hb h
    · exact step_read_reg_idle .status hb h
    · exact step_read_reg_idle .keyin hb h
    · exact step_read_reg_idle .mlen hb h
    · exact step_read_reg_idle .din0 hb h
    · exact step_read_reg_idle .din1 hb h
    · exact step_read_reg_idle .dout0 hb h
    · exact step_read_reg_idle .dout1 hb h
    · exact step_read_reg_idle .frameinfo hb h
  · exact step_read_reg_idle (.sk i) hb h

/-- While BUSY = 1 a read of volatile state answers OK, and changes only the count of such reads (R45). -/
theorem step_read_volatile {off : Nat} {size : Width} {p : Place} (ho : off < 0x20000) (hb : s.busy = true)
    (hp : placeAt s.cfg off size = some p) (hv : p.volatile = true)
    (h : s.inputs = .read (s.cfg.base + off) size :: rest) :
    ∃ v, step s = .next { s with inputs := rest, draws := s.draws + 1, replies := .read .ok v :: s.replies } := by
  have hb' : State.busy { s with inputs := rest } = true := hb
  refine ⟨volatileValue s.draws p, ?_⟩
  rw [step_read_at ho h, State.busRead, hp]
  simp only [hb', hv, Bool.and_self, if_true]
  rfl

theorem step_read_reg_volatile (r : Reg) (hb : s.busy = true) (hv : r.volatile = true)
    (h : s.inputs = .read (s.cfg.base + r.offset) .word :: rest) :
    ∃ v, step s = .next { s with inputs := rest, draws := s.draws + 1, replies := .read .ok v :: s.replies } :=
  step_read_volatile (by have := r.offset_lt; omega) hb (placeAt_offset s.cfg r) hv h

/-- Settles O21: the stable registers by `step_read_stable`, the volatile places by `step_read_volatile`. -/
theorem busyReadsAreStableOrFree : Obligations.BusyReadsAreStableOrFree := by
  intro s rest hc hb
  refine ⟨fun h => ⟨s.ctrlWord, step_read_stable .ctrl rfl h, s.ctrlWord_fields⟩, fun off v hoff h => ?_,
    fun off size hoff h => ?_⟩
  · simp only [List.mem_cons, Prod.mk.injEq, List.not_mem_nil, or_false] at hoff
    rcases hoff with ⟨rfl, rfl⟩ | ⟨rfl, rfl⟩ | ⟨rfl, rfl⟩ | ⟨rfl, rfl⟩
    · exact step_read_stable .status rfl h
    · exact step_read_stable .keyin rfl h
    · exact step_read_stable .din0 rfl h
    · exact step_read_stable .din1 rfl h
  · rcases hoff with ⟨rfl, hoff⟩ | ⟨rfl, i, rfl⟩ | ⟨a, ha, rfl, rfl | ⟨rfl, h4⟩⟩
    · simp only [List.mem_cons, List.not_mem_nil, or_false] at hoff
      rcases hoff with rfl | rfl | rfl | rfl
      · exact step_read_reg_volatile .mlen hb rfl h
      · exact step_read_reg_volatile .dout0 hb rfl h
      · exact step_read_reg_volatile .dout1 hb rfl h
      · exact step_read_reg_volatile .frameinfo hb rfl h
    · exact step_read_reg_volatile (.sk i) hb rfl h
    · exact step_read_volatile (mbuf_lt_window hc ha) hb (placeAt_mbufByte ha) rfl h
    · exact step_read_volatile (mbuf_lt_window hc ha) hb (placeAt_mbufWord ha h4) rfl h

/-- Settles O22, by `read_step_frame`. -/
theorem readsChangeNoFccState : Obligations.ReadsChangeNoFccState := by
  intro s addr size rest he
  have h := step_read he
  obtain ⟨dr, reps, e, hreps⟩ := read_step_frame he h
  exact ⟨dr, reps, h.trans (congrArg _ e), hreps⟩

end Sys2Proof.Machine
end

section
/-! SUPPORT. Steps and completions (R10, R192, R200, R251): the proofs of O4, O5, O9, O11 and O13. -/

namespace Sys2Proof.Machine

variable {s t : State} {i : Instr} {w : Word} {rest : List Event}

/-! ### The engine's turn (R192, R195) -/

/-- A pending word completes: with its command, or with BAD_COMMAND. -/
theorem State.engineTurn_of_pending (hp : s.pend = some w) :
    (∃ i, decode w = .ok i ∧ s.engineTurn = exec i s) ∨ s.engineTurn = .next (s.finish .badCommand) := by
  by_cases hacc : ∃ i, decode w = .ok i
  · obtain ⟨i, hd⟩ := hacc
    exact .inl ⟨i, hd, State.engineTurn_of_accepted hp hd⟩
  · exact .inr (State.engineTurn_of_not_accepted hp hacc)

theorem State.engineTurn_of_idle (hp : s.pend = none) : s.engineTurn = .next s := by
  simp only [State.engineTurn, hp]

theorem State.engineTurn_answers (s : State) : ∃ t, s.engineTurn = .next t := by
  cases hp : s.pend with
  | none => exact ⟨s, State.engineTurn_of_idle hp⟩
  | some w =>
    rcases State.engineTurn_of_pending hp with ⟨i, -, h⟩ | h
    · obtain ⟨t, ht⟩ := exec_answers i s
      exact ⟨t, h.trans ht⟩
    · exact ⟨_, h⟩

/-- Settles O4: the step is the engine's turn, which runs the decoded command. -/
theorem stepRunsThePendingCommand : Obligations.StepRunsThePendingCommand :=
  fun s _ _ hp hd _ =>
    ⟨fun rest h => (step_engine h).trans (State.engineTurn_of_accepted (s := { s with inputs := rest }) hp hd),
      fun h => (step_nil h).trans (State.engineTurn_of_accepted hp hd)⟩

/-! ### Every step answers (R10) -/

theorem step_answers (s : State) : ∃ t, step s = .next t := by
  cases h : s.inputs with
  | nil => exact step_nil h ▸ s.engineTurn_answers
  | cons e rest =>
    cases e with
    | read addr size => exact ⟨_, step_read h⟩
    | write addr size wdata => exact ⟨_, step_write h⟩
    | poll => exact ⟨_, step_poll h⟩
    | engine => exact step_engine h ▸ State.engineTurn_answers _
    | rst => exact ⟨_, step_rst h⟩

/-- Settles O5: every event and every command has an answer. -/
theorem everyStepAnswersANextState : Obligations.EveryStepAnswersANextState := ⟨step_answers, exec_answers⟩

/-! ### An error discards every write (R9, R200, R213) -/

/-- A command that raises a code changes STATUS only: each of its effects completes with OK. -/
theorem exec_of_raised (h : exec i s = .next t) (hc : t.errCode ≠ .ok) : t = s.finish t.errCode := by
  rcases exec_cases h with ⟨_, rfl⟩ | ⟨-, rfl⟩ | ⟨-, _, _, rfl⟩ | ⟨-, -, rfl⟩ | ⟨-, _, rfl⟩ | ⟨-, rfl⟩ | ⟨-, -, _, rfl⟩
  case inl => rfl
  all_goals exact absurd rfl hc

/-- Settles O9: a command by `exec_of_raised`, a rejected word by its completion. -/
theorem raisingChangesOnlyStatus : Obligations.RaisingChangesOnlyStatus := by
  refine ⟨fun i s => ?_, fun s w hp => ?_⟩
  · obtain ⟨t, h⟩ := exec_answers i s
    exact ⟨t, h, exec_of_raised h⟩
  · rcases State.engineTurn_of_pending hp with ⟨i, -, hrun⟩ | hbad
    · obtain ⟨t, h⟩ := exec_answers i s
      exact ⟨t, hrun.trans h, exec_of_raised h⟩
    · exact ⟨_, hbad, fun _ => rfl⟩

/-! ### Bounded progress (R251, logs 5 and 6) -/

/-- A run of a machine goes on from the state its first step answers. -/
theorem core_run_succ (M : Host.Core) {x y : M.State} (k : Nat) (h : M.step x = .next y) :
    M.run (k + 1) x = M.run k y := by
  simp only [Host.Core.run, h]

theorem run_succ {k : Nat} {o : Host.Outcome State Fault Refusal} (h : step s = .next t)
    (hr : Host.Core.run core k t = o) : Host.Core.run core (k + 1) s = o :=
  (core_run_succ core k h).trans hr

/-- After the engine's turn nothing is pending. -/
theorem State.engineTurn_idle (h : s.engineTurn = .next t) : t.busy = false := by
  rw [State.busy_eq_false]
  rcases State.engineTurn_cases h with ⟨hp, e⟩ | ⟨_, _, -, -, e⟩ | ⟨_, _, -, -, e⟩
  · cases e
    exact hp
  · obtain ⟨-, hp⟩ := exec_done_pend e.symm
    exact hp
  · cases e
    rfl

/-- A host write takes itself off the inputs and adds nothing to them. -/
theorem write_step_inputs {addr : Nat} {size : Width} {d : Word} (he : s.inputs = .write addr size d :: rest)
    (h : step s = .next t) : t.inputs = rest := by
  rcases write_step_cases he h with rfl | ⟨off, -, -, u, s', rfl, rfl | ⟨rfl, hu⟩⟩
  · rfl
  · rfl
  · rcases hu with rfl | ⟨-, -, -, rfl⟩ | ⟨-, -, rfl⟩ |
      ⟨-, rfl | rfl | rfl | rfl | rfl | ⟨-, -, -, rfl⟩ | ⟨_, -, rfl⟩ | ⟨_, -, -, rfl⟩⟩ <;> rfl

/-- A poll that finds BUSY = 1 puts the engine's turn next (log 6). -/
theorem poll_step_inputs (hb : s.busy = true) (he : s.inputs = .poll :: rest) (h : step s = .next t) :
    t.inputs = .engine :: .poll :: rest := by
  obtain ⟨hbit, -⟩ := State.statusWord_flags { s with inputs := rest }
  cases (step_poll he).symm.trans h
  rw [State.pollStatus, if_pos (hbit.trans hb)]

/-- The machine is idle after `k` steps for some `k` up to `n`. -/
def State.IdleWithin (s : State) (n : Nat) : Prop :=
  ∃ k t, k ≤ n ∧ Host.Core.run core k s = .next t ∧ t.busy = false

theorem State.idleWithin_of_idle {n : Nat} (hb : s.busy = false) : s.IdleWithin n := ⟨0, s, Nat.zero_le n, rfl, hb⟩

theorem State.IdleWithin.of_step {n : Nat} (h : step s = .next t) (ht : t.IdleWithin n) : s.IdleWithin (n + 1) := by
  obtain ⟨k, u, hk, hr, hu⟩ := ht
  exact ⟨k + 1, u, Nat.succ_le_succ hk, run_succ h hr, hu⟩

theorem State.idleWithin_of_engine {n : Nat} (he : s.inputs = .engine :: rest) : s.IdleWithin (n + 1) := by
  obtain ⟨t, h⟩ := step_answers s
  exact (State.idleWithin_of_idle (State.engineTurn_idle ((step_engine he).symm.trans h))).of_step h

/-- By induction on the inputs: each of them is one step, but for a poll, which brings the engine's turn. -/
theorem idleWithin_inputs (es : List Event) (s : State) (he : s.inputs = es) : s.IdleWithin (es.length + 1) := by
  induction es generalizing s with
  | nil =>
    obtain ⟨t, h⟩ := step_answers s
    exact (State.idleWithin_of_idle (State.engineTurn_idle ((step_nil he).symm.trans h))).of_step h
  | cons e rest ih =>
    cases hb : s.busy with
    | false => exact State.idleWithin_of_idle hb
    | true =>
      obtain ⟨t, h⟩ := step_answers s
      cases e with
      | read addr size =>
        obtain ⟨dr, reps, rfl, -⟩ := read_step_frame he h
        exact (ih _ rfl).of_step h
      | write addr size d => exact (ih t (write_step_inputs he h)).of_step h
      | poll => exact .of_step h (State.idleWithin_of_engine (poll_step_inputs hb he h))
      | engine => exact State.idleWithin_of_engine he
      | rst =>
        cases (step_rst he).symm.trans h
        exact (State.idleWithin_of_idle (State.resetEvent_busy _)).of_step (step_rst he)

/-- Settles O11, by `idleWithin_inputs`. -/
theorem pendingCommandCompletes : Obligations.PendingCommandCompletes := fun s => idleWithin_inputs _ s rfl

/-! ### Issue and completion by the host's `cmd M` (R97) -/

/-- Settles O13: the first step issues M's word, the second is the engine's turn on it. -/
theorem cmdStatementRunsItsCommand : Obligations.CmdStatementRunsItsCommand := by
  intro s i rest hb
  obtain ⟨t, hissue, -, rfl⟩ := idleCommandWriteIssues
    { s with inputs := (Stmt.cmd i).expand s.cfg.base ++ .engine :: rest } (encode i) (.engine :: rest) hb rfl
  refine run_succ hissue ?_
  obtain ⟨u, hu⟩ := exec_answers i
    { s with pend := some (encode i), inputs := rest, replies := .write .ok :: s.replies }
  rw [hu]
  refine run_succ ?_ rfl
  rw [step_engine rfl, State.engineTurn_of_accepted rfl (decode_encode i)]
  exact hu

end Sys2Proof.Machine
end

section
/-! SUPPORT. Host writes and transactions in general (R24 to R30, R61, R67, R75): the proofs of O12, O24, O26, O27, O30
and O33. -/

namespace Sys2Proof.Machine

variable {s t u : State} {wdata : Word} {rest : List Event}

/-! ### While BUSY = 1 (R26, R75) -/

/-- A host write while BUSY = 1 that is no soft reset changes at most WERR and DONE. -/
theorem write_step_busy {addr : Nat} {size : Width} (hb : s.busy = true)
    (he : s.inputs = .write addr size wdata :: rest)
    (hsrst : addr = s.cfg.base + Reg.ctrl.offset → size = .word → wdata.getLsbD 31 = false) (h : step s = .next t) :
    ∃ we dn reps, t = { s with werr := we, done := dn, inputs := rest, replies := reps } := by
  rcases write_step_cases he h with rfl | ⟨off, rfl, -, u, s', rfl, rfl | ⟨rfl, hu⟩⟩
  · exact ⟨_, _, _, rfl⟩
  · exact ⟨_, _, _, rfl⟩
  · rcases hu with rfl | ⟨rfl, hw, h31, -⟩ | ⟨-, -, rfl⟩ | ⟨hidle, -⟩
    · exact ⟨_, _, _, rfl⟩
    · cases (hsrst rfl hw).symm.trans h31
    · exact ⟨_, _, _, rfl⟩
    · cases hb.symm.trans hidle

/-- Settles O12: by the event; the engine's turn and the resets are excluded. -/
theorem operandsAreStableWhileBusy : Obligations.OperandsAreStableWhileBusy := by
  intro s e rest hb he hengine hrst hsrst
  obtain ⟨t, h⟩ := step_answers s
  refine ⟨t, ?_⟩
  cases e with
  | read addr size =>
    obtain ⟨dr, reps, e, -⟩ := read_step_frame he h
    exact ⟨_, _, _, _, _, h, e⟩
  | write addr size wdata =>
    obtain ⟨we, dn, reps, e⟩ := write_step_busy hb he (by rintro rfl rfl; exact hsrst wdata rfl) h
    exact ⟨_, _, _, _, _, h, e⟩
  | poll =>
    obtain ⟨dr, reps, ins, e⟩ := poll_step_frame he h
    exact ⟨_, _, _, _, _, h, e⟩
  | engine => exact absurd rfl hengine
  | rst => exact absurd rfl hrst

/-! ### The response of a legal access (R67) -/

/-- An aligned offset of the map's two ranges is a register's (R20). -/
theorem exists_reg_of_aligned {off : Nat} (h4 : off % 4 = 0) (h : off < 0x034 ∨ (0x040 ≤ off ∧ off < 0x080)) :
    ∃ r : Reg, off = r.offset := by
  have below : ∀ k < 13, (regAt (4 * k)).isSome = true := by decide
  rcases h with hlt | ⟨hge, hlt⟩
  · obtain ⟨r, hr⟩ := Option.isSome_iff_exists.1 (below (off / 4) (by omega))
    exact ⟨r, (by omega : off = 4 * (off / 4)).trans (offset_of_regAt hr)⟩
  · exact ⟨.sk ⟨(off - 0x040) / 4, by omega⟩, by simp only [Reg.offset]; omega⟩

/-- A read of a place answers OK. -/
theorem step_read_place {off : Nat} {size : Width} {p : Place} (ho : off < 0x20000)
    (hp : placeAt s.cfg off size = some p) (h : s.inputs = .read (s.cfg.base + off) size :: rest) :
    ∃ t v, step s = .next t ∧ t.replies = .read .ok v :: s.replies := by
  rcases State.busRead_cases { s with inputs := rest } off size with ⟨hn, -⟩ | ⟨_, -, -, -, e⟩ | ⟨_, -, -, e⟩
  · cases hn.symm.trans hp
  · exact ⟨_, _, (step_read_at ho h).trans (congrArg _ e), rfl⟩
  · exact ⟨_, _, (step_read_at ho h).trans (congrArg _ e), rfl⟩

theorem State.unlessBusy_replies (h : t.replies = s.replies) : (s.unlessBusy t).replies = s.replies := by
  cases hb : s.busy with
  | true => rw [State.unlessBusy_busy hb, State.dropWrite_replies]
  | false => rw [State.unlessBusy_idle hb, h]

/-- No register write adds a response of its own. -/
theorem State.writeReg_replies (s : State) (r : Reg) (wdata : Word) : (s.writeReg r wdata).replies = s.replies := by
  cases r with
  | ctrl =>
    rw [State.writeReg]
    split
    · exact s.resetEvent_replies
    · exact State.unlessBusy_replies rfl
  | mlen =>
    refine State.unlessBusy_replies ?_
    split <;> rfl
  | cmd | keyin | din0 | din1 => exact State.unlessBusy_replies rfl
  | status | id | param | ksstep | dout0 | dout1 | frameinfo | sk => rfl

theorem step_write_reg_ok (r : Reg) (hro : r.readOnly = false)
    (h : s.inputs = .write (s.cfg.base + r.offset) .word wdata :: rest) :
    ∃ t, step s = .next t ∧ t.replies = .write .ok :: s.replies := by
  refine ⟨_, step_write_reg r h, ?_⟩
  rw [hro, if_neg Bool.false_ne_true, State.answer_replies, State.writeReg_replies]

/-- A legal write to MBUF is answered OK, even where it is dropped. -/
theorem State.busWrite_mbuf_replies {a : Nat} {size : Width} (ha : a < s.cfg.mbufBytes)
    (hsize : size = .byte ∨ (size = .word ∧ a % 4 = 0)) :
    (s.busWrite (mbufOffset + a) size wdata).replies = .write .ok :: s.replies := by
  rcases hsize with rfl | ⟨rfl, h4⟩
  · rw [State.busWrite, placeAt_mbufByte ha]
    exact congrArg (_ :: ·) (State.unlessBusy_replies rfl)
  · rw [State.busWrite, placeAt_mbufWord ha h4]
    exact congrArg (_ :: ·) (State.unlessBusy_replies rfl)

theorem step_write_mbuf_ok {a : Nat} {size : Width} (hc : s.cfg.legal = true) (ha : a < s.cfg.mbufBytes)
    (hsize : size = .byte ∨ (size = .word ∧ a % 4 = 0))
    (h : s.inputs = .write (s.cfg.base + (mbufOffset + a)) size wdata :: rest) :
    ∃ t, step s = .next t ∧ t.replies = .write .ok :: s.replies :=
  ⟨_, step_write_at (mbuf_lt_window hc ha) h, State.busWrite_mbuf_replies (s := { s with inputs := rest }) ha hsize⟩

/-- Settles O24: an access to a place answers OK, unless it writes a read-only register. -/
theorem legalAccessesAnswerOk : Obligations.LegalAccessesAnswerOk := by
  intro s off size rest hc
  refine ⟨fun hlegal h => ?_, fun hlegal wdata h => ?_⟩
  · rcases hlegal with ⟨rfl, h4, hoff⟩ | ⟨hge, hlt, hsize⟩
    · obtain ⟨r, rfl⟩ := exists_reg_of_aligned h4 hoff
      exact step_read_place (by omega) (placeAt_offset s.cfg r) h
    · obtain ⟨a, rfl⟩ := Nat.exists_eq_add_of_le hge
      have ha : a < s.cfg.mbufBytes := by omega
      rcases hsize with rfl | ⟨rfl, h4⟩
      · exact step_read_place (mbuf_lt_window hc ha) (placeAt_mbufByte ha) h
      · exact step_read_place (mbuf_lt_window hc ha) (placeAt_mbufWord ha (by omega)) h
  · rcases hlegal with ⟨rfl, hoff⟩ | ⟨hge, hlt, hsize⟩
    · simp only [List.mem_cons, List.not_mem_nil, or_false] at hoff
      rcases hoff with rfl | rfl | rfl | rfl | rfl | rfl | rfl
      · exact step_write_reg_ok .ctrl rfl h
      · exact step_write_reg_ok .status rfl h
      · exact step_write_reg_ok .cmd rfl h
      · exact step_write_reg_ok .keyin rfl h
      · exact step_write_reg_ok .mlen rfl h
      · exact step_write_reg_ok .din0 rfl h
      · exact step_write_reg_ok .din1 rfl h
    · obtain ⟨a, rfl⟩ := Nat.exists_eq_add_of_le hge
      exact step_write_mbuf_ok hc (by omega) (hsize.imp_right fun ⟨hw, h4⟩ => ⟨hw, by omega⟩) h

/-! ### Register writes (R24, R25, R28 to R30) -/

/-- Settles O26: the write is `State.acknowledge`. -/
theorem statusWriteClearsByOne : Obligations.StatusWriteClearsByOne := by
  intro s wdata rest h
  refine ⟨_, step_write_reg .status h, ?_, ?_, rfl⟩
  · change (s.done && !wdata.getLsbD 1) = _
    cases wdata.getLsbD 1 <;> simp
  · change (s.werr && !wdata.getLsbD 3) = _
    cases wdata.getLsbD 3 <;> simp

/-- While BUSY = 0 a write to a writable register makes the register's own update. -/
theorem step_write_reg_stores (r : Reg) (hro : r.readOnly = false)
    (hw : State.writeReg { s with inputs := rest } r wdata = u)
    (h : s.inputs = .write (s.cfg.base + r.offset) .word wdata :: rest) :
    step s = .next (u.answer (.write .ok)) := by
  rw [step_write_reg r h, hro, hw, if_neg Bool.false_ne_true]

/-- Settles O27: each update is the register's own, which BUSY = 0 lets through. -/
theorem idleWritesStore : Obligations.IdleWritesStore := by
  intro s v rest hb
  have hidle (t : State) : State.unlessBusy { s with inputs := rest } t = t :=
    State.unlessBusy_idle (s := { s with inputs := rest }) hb t
  refine ⟨fun h31 => ?_, ?_, fun hfit => ?_, ?_, ?_⟩
  · exact step_write_reg_stores .ctrl rfl (State.writeReg_ctrl_idle (s := { s with inputs := rest }) hb h31)
  · exact step_write_reg_stores .keyin rfl (hidle _)
  · exact step_write_reg_stores .mlen rfl ((hidle _).trans (if_pos hfit))
  · exact step_write_reg_stores .din0 rfl (hidle _)
  · exact step_write_reg_stores .din1 rfl (hidle _)

/-! ### Outside the window (R61, log 8) -/

theorem Config.offsetOf_outside {c : Config} {addr : Nat} (h : addr < c.base ∨ c.base + 0x20000 ≤ addr) :
    Config.offsetOf c addr = none := by
  refine Option.eq_none_iff_forall_ne_some.2 fun off ho => ?_
  obtain ⟨rfl, hlt⟩ := eq_of_offsetOf ho
  omega

/-- Settles O30: such an address has no offset. -/
theorem transactionsOutsideTheWindowPassBy : Obligations.TransactionsOutsideTheWindowPassBy := by
  intro s addr size wdata rest hout h
  have hnone := Config.offsetOf_outside hout
  rcases h with h | h
  · rw [step_read h, State.hostRead, hnone]
  · rw [step_write h, State.hostWrite, hnone]

/-! ### What changes MLEN (R30) -/

/-- Only PAD and UNPAD of the ten commands change MLEN. -/
theorem exec_changes_mlen {i : Instr} (h : exec i s = .next t) (hne : t.mlen ≠ s.mlen) : i = .pad ∨ i = .unpad := by
  rcases exec_cases h with ⟨_, rfl⟩ | ⟨-, rfl⟩ | ⟨-, _, _, rfl⟩ | ⟨hi, -, rfl⟩ | ⟨hi, _, rfl⟩ | ⟨-, rfl⟩ | ⟨-, -, _, rfl⟩
  case inr.inr.inr.inl => exact .inl hi
  case inr.inr.inr.inr.inl => exact .inr hi
  all_goals exact absurd rfl hne

/-- An engine's turn that changes MLEN completes a pending PAD or UNPAD. -/
theorem State.engineTurn_changes_mlen (h : s.engineTurn = .next t) (hne : t.mlen ≠ s.mlen) :
    ∃ w, s.pend = some w ∧ (decode w = .ok .pad ∨ decode w = .ok .unpad) := by
  rcases State.engineTurn_cases h with ⟨-, e⟩ | ⟨w, i, hp, hd, e⟩ | ⟨_, _, -, -, e⟩
  · cases e
    exact absurd rfl hne
  · exact ⟨w, hp, (exec_changes_mlen e.symm hne).imp (by rintro rfl; exact hd) (by rintro rfl; exact hd)⟩
  · cases e
    exact absurd rfl hne

/-- A host write that changes MLEN is a soft reset, or stores a legal length while BUSY = 0. -/
theorem write_step_changes_mlen {addr : Nat} {size : Width} (he : s.inputs = .write addr size wdata :: rest)
    (h : step s = .next t) (hne : t.mlen ≠ s.mlen) :
    (addr = s.cfg.base + Reg.ctrl.offset ∧ size = .word ∧ wdata.getLsbD 31 = true) ∨
      (addr = s.cfg.base + Reg.mlen.offset ∧ size = .word ∧ s.busy = false ∧ wdata.toNat ≤ s.cfg.mbufBytes ∧
        t.mlen = wdata.toNat) := by
  rcases write_step_cases he h with rfl | ⟨off, rfl, -, u, s', rfl, rfl | ⟨rfl, hu⟩⟩
  · exact absurd rfl hne
  · exact absurd rfl hne
  · rcases hu with rfl | ⟨rfl, hw, h31, rfl⟩ | ⟨-, -, rfl⟩ | ⟨hb, hu⟩
    · exact absurd rfl hne
    · exact .inl ⟨rfl, hw, h31⟩
    · exact absurd rfl hne
    · rcases hu with rfl | rfl | rfl | rfl | rfl | ⟨rfl, hw, hfit, rfl⟩ | ⟨_, -, rfl⟩ | ⟨_, -, -, rfl⟩
      · exact absurd rfl hne
      · exact absurd rfl hne
      · exact absurd rfl hne
      · exact absurd rfl hne
      · exact absurd rfl hne
      · exact .inr ⟨rfl, hw, hb, hfit, rfl⟩
      · exact absurd rfl hne
      · exact absurd rfl hne

/-- Settles O33: by the event of the step. -/
theorem mlenChangesOnlyAsTheRuleSays : Obligations.MlenChangesOnlyAsTheRuleSays := by
  intro s t h hne
  rcases step_cases h with ⟨he, ht⟩ | ⟨e, rest, he, ht⟩
  · obtain ⟨w, hp, hd⟩ := State.engineTurn_changes_mlen ht hne
    exact .inl ⟨w, hp, hd, .inl he⟩
  · cases e with
    | read addr size =>
      obtain ⟨dr, reps, rfl, -⟩ := read_step_frame he h
      exact absurd rfl hne
    | write addr size wdata =>
      rcases write_step_changes_mlen he h hne with ⟨rfl, rfl, h31⟩ | ⟨rfl, rfl, hstored⟩
      · exact .inr (.inr (.inl ⟨wdata, rest, he, h31⟩))
      · exact .inr (.inr (.inr ⟨wdata, rest, he, hstored⟩))
    | poll =>
      obtain ⟨dr, reps, ins, rfl⟩ := poll_step_frame he h
      exact absurd rfl hne
    | engine =>
      obtain ⟨w, hp, hd⟩ := State.engineTurn_changes_mlen (s := { s with inputs := rest }) ht hne
      exact .inl ⟨w, hp, hd, .inr ⟨rest, he⟩⟩
    | rst => exact .inr (.inl ⟨rest, he⟩)

end Sys2Proof.Machine
end

section
/-! SUPPORT. The frame of the ten commands (R9, R71, R91): the proof of O34. -/

namespace Sys2Proof.Machine

variable {s t : State} {i : Instr}

/-- No command changes CTRL, WERR, an operand register, or a field that is not the FCC's own. -/
theorem exec_frame (h : exec i s = .next t) :
    t.ien = s.ien ∧ t.strictPad = s.strictPad ∧ t.strictSplit = s.strictSplit ∧ t.werr = s.werr ∧
      t.keyin = s.keyin ∧ t.din0 = s.din0 ∧ t.din1 = s.din1 ∧ t.resets = s.resets ∧ t.draws = s.draws ∧
      t.inputs = s.inputs ∧ t.replies = s.replies ∧ t.cfg = s.cfg := by
  rcases exec_cases h with ⟨_, rfl⟩ | ⟨-, rfl⟩ | ⟨-, _, _, rfl⟩ | ⟨-, -, rfl⟩ | ⟨-, _, rfl⟩ | ⟨-, rfl⟩ | ⟨-, -, _, rfl⟩ <;>
    exact ⟨rfl, rfl, rfl, rfl, rfl, rfl, rfl, rfl, rfl, rfl, rfl, rfl⟩

/-- Only LOADKEY changes AKEY, SK or KEYVALID. -/
theorem exec_keys_frame (h : exec i s = .next t) (hi : i ≠ .loadkey) :
    t.akey = s.akey ∧ t.sk = s.sk ∧ t.keyValid = s.keyValid := by
  rcases exec_cases h with ⟨_, rfl⟩ | ⟨hl, -⟩ | ⟨-, _, _, rfl⟩ | ⟨-, -, rfl⟩ | ⟨-, _, rfl⟩ | ⟨-, rfl⟩ | ⟨-, -, _, rfl⟩
  case inr.inl => exact absurd hl hi
  all_goals exact ⟨rfl, rfl, rfl⟩

/-- Only ROUNDF, ENCB and DECB change DOUT. -/
theorem exec_dout_frame (h : exec i s = .next t) (hi : i ∉ [Instr.roundf, .encb, .decb]) :
    t.dout0 = s.dout0 ∧ t.dout1 = s.dout1 := by
  rcases exec_cases h with ⟨_, rfl⟩ | ⟨-, rfl⟩ | ⟨hd, -⟩ | ⟨-, -, rfl⟩ | ⟨-, _, rfl⟩ | ⟨-, rfl⟩ | ⟨-, -, _, rfl⟩
  case inr.inr.inl => exact absurd (by simpa using hd) hi
  all_goals exact ⟨rfl, rfl⟩

/-- Only SPLIT, ENCBUF and DECBUF change FRAMEINFO. -/
theorem exec_frameinfo_frame (h : exec i s = .next t) (hi : i ∉ [Instr.split, .encbuf, .decbuf]) :
    t.frameinfo = s.frameinfo := by
  rcases exec_cases h with ⟨_, rfl⟩ | ⟨-, rfl⟩ | ⟨-, _, _, rfl⟩ | ⟨-, -, rfl⟩ | ⟨-, _, rfl⟩ | ⟨rfl, -⟩ | ⟨hb, -⟩
  case inr.inr.inr.inr.inr.inl => exact absurd (by decide) hi
  case inr.inr.inr.inr.inr.inr => rcases hb with rfl | rfl <;> exact absurd (by decide) hi
  all_goals rfl

/-- What a command can do to MBUF: nothing, the padding from MLEN on, or the whole frames below MLEN. -/
theorem exec_mbuf_cases (h : exec i s = .next t) :
    (∀ a, t.readByte a = s.readByte a) ∨
    (i = .pad ∧ ∀ a, a < s.mlen ∨ s.mlen + padCount s.mlen ≤ a → t.readByte a = s.readByte a) ∨
    ((i = .encbuf ∨ i = .decbuf) ∧ ∀ a, s.mlen ≤ a → t.readByte a = s.readByte a) := by
  rcases exec_cases h with ⟨_, rfl⟩ | ⟨-, rfl⟩ | ⟨-, _, _, rfl⟩ | ⟨hi, -, rfl⟩ | ⟨-, _, rfl⟩ | ⟨-, rfl⟩ | ⟨hi, -, g, rfl⟩
  case inr.inr.inr.inl => exact .inr (.inl ⟨hi, fun _ => State.readByte_padded_outside⟩)
  case inr.inr.inr.inr.inr.inr =>
    exact .inr (.inr ⟨hi, fun a ha => State.readByte_transformed_outside g (by omega)⟩)
  all_goals exact .inl fun _ => rfl

/-- Settles O34: the fields one after the other, and the bytes of MBUF by `exec_mbuf_cases`. -/
theorem commandsWriteOnlyTheirResults : Obligations.CommandsWriteOnlyTheirResults := by
  intro i s
  obtain ⟨t, h⟩ := exec_answers i s
  have hmlen (hi : i ∉ [Instr.pad, .unpad]) : t.mlen = s.mlen := by
    by_contra hne
    exact hi (by simpa using exec_changes_mlen h hne)
  have hmbuf : (i ∉ [Instr.pad, .encbuf, .decbuf] → ∀ a, t.readByte a = s.readByte a) ∧
      (i = .pad → ∀ a, a < s.mlen ∨ s.mlen + (8 - s.mlen % 8) ≤ a → t.readByte a = s.readByte a) ∧
      (i ∈ [Instr.encbuf, .decbuf] → ∀ a, s.mlen ≤ a → t.readByte a = s.readByte a) := by
    rcases exec_mbuf_cases h with hall | ⟨rfl, hpad⟩ | ⟨hi, hbuf⟩
    · exact ⟨fun _ => hall, fun _ a _ => hall a, fun _ a _ => hall a⟩
    · exact ⟨fun hi => absurd (by decide) hi, fun _ => hpad, fun hi => absurd hi (by decide)⟩
    · rcases hi with rfl | rfl <;>
        exact ⟨fun hi => absurd (by decide) hi, nofun, fun _ => hbuf⟩
  obtain ⟨hien, hspad, hssplit, hwerr, hkeyin, hdin0, hdin1, hresets, hdraws, hinputs, hreplies, hcfg⟩ := exec_frame h
  exact ⟨t, h, hien, hspad, hssplit, hwerr, hkeyin, hdin0, hdin1, hresets, hdraws, hinputs, hreplies, hcfg,
    exec_keys_frame h, exec_dout_frame h, hmlen, exec_frameinfo_frame h, hmbuf⟩

end Sys2Proof.Machine
end

section
/-! SUPPORT. The message: Pad, Unpad and the cipher on it (R150 to R155, R170 to R187): the proofs of O48, O51, O56, O57 and
O58. -/

namespace Sys2Proof.Machine

variable {s t : State}

/-! ### PAD and UNPAD on the message (R150, R153) -/

/-- The padded state's message is Pad of the message (R150). -/
theorem State.message_padded (s : State) : s.padded.message = padMessage s.message := by
  refine State.message_eq (by rw [length_padMessage, State.length_message]; rfl) fun j hj => ?_
  by_cases hlt : j < s.mlen
  · rw [State.readByte_padded_outside (.inl hlt)]
    simp only [padMessage]
    rw [List.getElem_append_left (by rwa [State.length_message]), State.getElem_message]
  · rw [length_padMessage, State.length_message] at hj
    have inside : s.padded.readByte (s.mlen + (j - s.mlen)) = BitVec.ofNat 8 (padCount s.mlen) :=
      State.readByte_padded_inside (by omega)
    rw [Nat.add_sub_of_le (Nat.not_lt.1 hlt)] at inside
    have padding := getElem?_padMessage s.message (i := j) (by rw [State.length_message]; omega)
      (by rw [State.length_message]; omega)
    rw [State.length_message] at padding
    rw [inside, ← Option.some_inj, ← padding, List.getElem?_eq_getElem]

/-- Settles O48, by `State.message_padded`. -/
theorem padComputesPad : Obligations.PadComputesPad := fun s h => ⟨_, exec_pad_of_room h, s.message_padded⟩

/-- A lower MLEN cuts the message short. -/
theorem State.message_setMlen {n : Nat} (hn : n ≤ s.mlen) : State.message { s with mlen := n } = s.message.take n := by
  refine State.message_eq (by simpa using hn) fun j hj => ?_
  rw [List.getElem_take, State.getElem_message]
  rfl

/-- Unpad of a message that is not empty takes off what its last byte says (R153). -/
theorem State.unpadMessage_message (k0 : UnpadK0) (h : s.mlen ≠ 0) :
    unpadMessage k0 s.message = s.message.take (s.mlen - unpadCount k0 (s.readByte (s.mlen - 1)) s.mlen) := by
  rw [unpadMessage, State.getLast?_message s h, State.length_message]

/-- Where UNPAD does not raise, it computes Unpad of the message. -/
theorem exec_unpad_computes (h : s.mlen ≠ 0) (hok : s.strictPad = false ∨ strictValid s.message = true) :
    ∃ t, exec .unpad s = .next t ∧ t.errCode = .ok ∧ t.message = unpadMessage s.cfg.unpadK0 s.message ∧
      t.mlen = s.mlen - unpadCount s.cfg.unpadK0 (s.readByte (s.mlen - 1)) s.mlen := by
  refine ⟨_, exec_unpad_of_valid h (hok.imp_right (State.strictValid_message h).1), rfl, ?_, rfl⟩
  rw [State.unpadMessage_message _ h]
  exact State.message_setMlen (s := s) (Nat.sub_le ..)

/-- A last byte of 0 stands for no padding, or for all of it (93 I3). -/
theorem sub_unpadCount_zero (k0 : UnpadK0) (len : Nat) :
    len - unpadCount k0 0#8 len = match k0 with | .keep => len | .empty => 0 := by
  cases k0 <;> simp [unpadCount]

/-- Settles O51: UNPAD raises exactly where the strict check fails, else `exec_unpad_computes`. -/
theorem unpadComputesUnpad : Obligations.UnpadComputesUnpad := by
  intro s h
  by_cases hbad : s.strictPad = true ∧ strictValid s.message = false
  · obtain ⟨hs, hv⟩ := hbad
    have hk : ¬ s.PaddingValid (s.readByte (s.mlen - 1)) := by
      rw [← State.strictValid_message h, hv]
      exact Bool.false_ne_true
    exact ⟨_, exec_unpad_of_invalid h hs hk, fun _ => ⟨rfl, rfl⟩, by simp [hs, hv], by simp [hs]⟩
  · have hok : s.strictPad = false ∨ strictValid s.message = true :=
      (not_and_or.1 hbad).imp Bool.eq_false_of_not_eq_true Bool.eq_true_of_not_eq_false
    obtain ⟨t, ht, hcode, hmsg, hlen⟩ := exec_unpad_computes h hok
    refine ⟨t, ht, fun hb => absurd hb hbad, fun _ => ⟨hcode, hmsg⟩, fun _ hz => ?_⟩
    rw [hlen, hz]
    exact sub_unpadCount_zero _ _

/-! ### Frames and chunks (R171, R173) -/

/-- The 8 bytes of a frame's halves (R173). -/
def frameBytes (h : Word × Word) : List Byte := bytesBe32 h.1 ++ bytesBe32 h.2

/-- A frame's halves are its 8 bytes. -/
theorem Memory.frameBytes_readHalves (n : Nat) (m : Memory) (a : Nat) :
    frameBytes (Memory.readHalves n m a) = Memory.readMany n m a 8 := by
  simp [frameBytes, Memory.readHalves, Memory.readWord, bytesBe32_be32, Memory.readMany, List.range_succ]

/-- A run of a longer run of bytes. -/
theorem Memory.take_drop_readMany (n : Nat) (m : Memory) (a : Nat) {k d c : Nat} (h : d + c ≤ k) :
    ((Memory.readMany n m a k).drop d).take c = Memory.readMany n m (a + d) c := by
  refine List.ext_getElem ?_ fun j _ _ => ?_
  · simp only [List.length_take, List.length_drop, Memory.length_readMany]
    omega
  · simp [Memory.readMany, Nat.add_assoc]

/-- Split of a message of whole frames gives its frames. -/
theorem State.splitMessage_message (hm : s.mlen % 8 = 0) :
    splitMessage s.message = (List.range (s.mlen / 8)).map fun f => frameBytes (s.frameHalves f) := by
  have hcount : frameCount s.mlen = s.mlen / 8 := by
    unfold frameCount
    omega
  rw [splitMessage, State.length_message, hcount]
  refine List.map_congr_left fun f hf => ?_
  have hf := List.mem_range.1 hf
  rw [State.message, Memory.take_drop_readMany _ _ _ (by omega), Nat.zero_add, State.frameHalves,
    Memory.frameBytes_readHalves]

/-- In-place processing is Combine of the engine on each chunk of Split (R171, R173). -/
theorem State.message_transformed (g : Word × Word → Word × Word) (hm : s.mlen % 8 = 0) :
    ∃ cs, (splitMessage s.message).map (onBlock g) = cs.map Except.ok ∧
      (s.transformed g).message = combineFrames cs := by
  refine ⟨(List.range (s.mlen / 8)).map fun f => frameBytes (g (s.frameHalves f)), ?_, ?_⟩
  · rw [State.splitMessage_message hm, List.map_map, List.map_map]
    exact List.map_congr_left fun f _ => onBlock_bytes g _ _
  · have hm' : (s.transformed g).mlen % 8 = 0 := hm
    rw [← combineFrames_splitMessage (s.transformed g).message, State.splitMessage_message hm']
    refine congrArg combineFrames (List.map_congr_left fun f hf => ?_)
    rw [State.frameHalves_transformed (s := s) g (List.mem_range.1 hf)]

/-! ### ENCBUF, DECBUF and PAD (R174, R175, R184) -/

theorem exec_encbuf_of_frames (hk : s.keyValid = true) (hm : s.mlen % 8 = 0) :
    exec .encbuf s = .next ((s.transformed (encryptHalves s.sk)).finish .ok) :=
  State.completed_transformBuffer_of_frames _ hk hm

theorem exec_decbuf_of_frames (hk : s.keyValid = true) (hm : s.mlen % 8 = 0) :
    exec .decbuf s = .next ((s.transformed (decryptHalves s.sk)).finish .ok) :=
  State.completed_transformBuffer_of_frames _ hk hm

/-- A padded message is one frame longer than the whole frames of the message (R187). -/
theorem State.mlen_padded (s : State) : s.padded.mlen = 8 * (s.mlen / 8 + 1) := by
  change s.mlen + padCount s.mlen = _
  unfold padCount
  omega

theorem State.mlen_padded_mod (s : State) : s.padded.mlen % 8 = 0 := by
  rw [State.mlen_padded, Nat.mul_mod_right]

/-- Settles O56: each command by `State.message_transformed`, and PAD before it by `State.message_padded`. -/
theorem bufferCommandsRefineTheCipher : Obligations.BufferCommandsRefineTheCipher := by
  intro s hk
  refine ⟨fun hm => ?_, fun hm => ?_, fun hroom => ?_⟩
  · obtain ⟨cs, hcs, hmsg⟩ := State.message_transformed (encryptHalves s.sk) hm
    exact ⟨_, cs, exec_encbuf_of_frames hk hm, hcs, hmsg⟩
  · obtain ⟨cs, hcs, hmsg⟩ := State.message_transformed (decryptHalves s.sk) hm
    exact ⟨_, cs, exec_decbuf_of_frames hk hm, hcs, hmsg⟩
  · obtain ⟨cs, hcs, hmsg⟩ := State.message_transformed (encryptHalves s.sk) s.mlen_padded_mod
    rw [State.message_padded] at hcs
    exact ⟨_, _, cs, exec_pad_of_room hroom, rfl,
      exec_encbuf_of_frames (s := s.padded.finish .ok) hk s.mlen_padded_mod, rfl, hcs, hmsg, s.mlen_padded⟩

/-! ### DECBUF after ENCBUF (R138) -/

/-- Bytes of equal frames are equal. -/
theorem Memory.read_eq_of_readHalves_eq {n : Nat} {m m' : Memory} {a j : Nat}
    (h : Memory.readHalves n m a = Memory.readHalves n m' a) (hj : j < 8) :
    Memory.read n m (a + j) = Memory.read n m' (a + j) := by
  have hbytes : Memory.readMany n m a 8 = Memory.readMany n m' a 8 := by
    rw [← Memory.frameBytes_readHalves, ← Memory.frameBytes_readHalves, h]
  simpa [Memory.readMany, hj] using congrArg (·[j]?) hbytes

/-- Transforming every frame and then undoing it restores every byte of MBUF. -/
theorem State.readByte_transformed_undone (s : State) {g g' : Word × Word → Word × Word} (hinv : ∀ h, g' (g h) = h)
    (a : Nat) : ((s.transformed g).transformed g').readByte a = s.readByte a := by
  by_cases ha : 8 * (s.mlen / 8) ≤ a
  · exact (State.readByte_transformed_outside (s := s.transformed g) g' ha).trans
      (State.readByte_transformed_outside g ha)
  · have hf : a / 8 < s.mlen / 8 := by omega
    have hframe : ((s.transformed g).transformed g').frameHalves (a / 8) = s.frameHalves (a / 8) := by
      rw [State.frameHalves_transformed (s := s.transformed g) g' hf, State.frameHalves_transformed g hf, hinv]
    have hbyte := Memory.read_eq_of_readHalves_eq hframe (Nat.mod_lt a (by decide))
    rwa [Nat.div_add_mod] at hbyte

/-- With a key and whole frames ENCBUF and then DECBUF complete with OK, and restore MBUF. -/
theorem exec_encbuf_decbuf (hk : s.keyValid = true) (hm : s.mlen % 8 = 0) :
    ∃ t u, exec .encbuf s = .next t ∧ t.errCode = .ok ∧ exec .decbuf t = .next u ∧ u.errCode = .ok ∧
      u.mlen = s.mlen ∧ (∀ a, u.readByte a = s.readByte a) :=
  ⟨_, _, exec_encbuf_of_frames hk hm, rfl,
    exec_decbuf_of_frames (s := (s.transformed (encryptHalves s.sk)).finish .ok) hk hm, rfl, rfl,
    s.readByte_transformed_undone (decryptHalves_encryptHalves s.sk)⟩

/-- Settles O57, by `exec_encbuf_decbuf`. -/
theorem decbufUndoesEncbuf : Obligations.DecbufUndoesEncbuf := by
  intro s hk hm
  obtain ⟨t, u, ht, -, hu, hcode, hlen, hbytes⟩ := exec_encbuf_decbuf hk hm
  exact ⟨t, u, ht, hu, hcode, hlen, hbytes⟩

/-! ### The round trip (R186) -/

/-- Settles O58: DECBUF restores the padded message, of which UNPAD's strict check holds and Unpad is the message. -/
theorem messageRoundTrip : Obligations.MessageRoundTrip := by
  intro s hk hlt
  obtain ⟨u, v, hu, hucode, hv, hvcode, hlen, hbytes⟩ :=
    exec_encbuf_decbuf (s := s.padded.finish .ok) hk s.mlen_padded_mod
  have hmsg : v.message = padMessage s.message := by
    rw [← s.message_padded]
    exact State.message_eq (by rw [State.length_message, hlen]; rfl) fun j hj =>
      (hbytes j).trans (State.getElem_message s.padded hj).symm
  have hne : v.mlen ≠ 0 := by
    rw [hlen, State.finish_mlen, State.mlen_padded]
    omega
  obtain ⟨w, hw, hwcode, hwmsg, -⟩ :=
    exec_unpad_computes hne (.inr (by rw [hmsg]; exact strictValid_padMessage s.message))
  refine ⟨_, u, v, w, exec_pad_of_room (Nat.ne_of_lt hlt), rfl, hu, hucode, hv, hvcode, hw, hwcode, ?_⟩
  rw [hwmsg, hmsg, unpadMessage_padMessage]

end Sys2Proof.Machine
end
